-- ==== Sys2Proof/Word.lean ====
section
/-! DEFINITION. The widths of the block's values (spec/00_scope.md R6): every value is an unsigned
bit vector of a stated width, bit 0 the least significant (R7). -/

namespace Sys2Proof

/-- An input data unit: `B = 8` bits (R6). -/
abbrev Byte := BitVec 8

/-- `W = 32` bits: `REG`, `CFG.POLY`, `CFG.START`, `CFG.END`, operands and responses (R6). -/
abbrev Word := BitVec 32

/-- A command word of the one format `CMD40` (spec/30_encoding.md R56, R63): a 40-bit parallel value
with no byte serialisation (spec/20_memory.md R43). -/
abbrev CmdWord := BitVec 40

end Sys2Proof
end

