-- ==== Sys2Proof/Machine/BitReversal.lean ====
section
/-! DEFINITION. The bit-reversal unit (spec/43_bit_reversal_unit.md): a pure function with no state and
no command of its own (R136, R138), used at the widths 8 and 32 only (R135). -/

namespace Sys2Proof.Machine

/-- The bits `0` to `k - 1` of `rev_N(v)`: bit `i` is `v[N-1-i]` (R130). -/
def revUpTo {n : Nat} (v : BitVec n) : Nat → BitVec n
  | 0 => 0#n
  | k + 1 => revUpTo v k ||| ((BitVec.ofBool (v.getLsbD (n - 1 - k))).setWidth n <<< k)

/-- `rev_N(v)`: `w[i] = v[N-1-i]` for every `i` from 0 to `N-1` (R130). -/
def rev {n : Nat} (v : BitVec n) : BitVec n := revUpTo v n

/-- `rev8` (R131). -/
def rev8 (v : Byte) : Byte := rev v

/-- `rev32` (R132). -/
def rev32 (v : Word) : Word := rev v

end Sys2Proof.Machine
end

