-- ==== Sys2Proof/Syntax.lean ====
section
/-! DEFINITION. The thirteen commands (spec/30_encoding.md R55, R56), one constructor per row of
spec/opcode_table.json. An operand carries its class in its type (R57): `U32` is a `Word`, `BOOL` a
`Bool` (1 is true), `BYTE` a `Byte`, `NONE` is no argument. -/

namespace Sys2Proof

/-- The commands, in the order of the opcode table. -/
inductive Instr where
  /-- `SETPOLY p`, spec/40_construction_config.md R81. -/
  | setpoly (p : Word)
  /-- `GETPOLY`, R82. -/
  | getpoly
  /-- `SETSTART v`, R83. -/
  | setstart (v : Word)
  /-- `GETSTART`, R84. -/
  | getstart
  /-- `SETEND v`, R85. -/
  | setend (v : Word)
  /-- `GETEND`, R86. -/
  | getend
  /-- `SETREVIN b`, R87. -/
  | setrevin (b : Bool)
  /-- `GETREVIN`, R88. -/
  | getrevin
  /-- `SETREVOUT b`, R89. -/
  | setrevout (b : Bool)
  /-- `GETREVOUT`, R90. -/
  | getrevout
  /-- `RESET`, the soft reset, spec/41_reset_add.md R100. -/
  | reset
  /-- `ADDB b`, spec/41_reset_add.md R101. -/
  | addb (b : Byte)
  /-- `GETCRC`, spec/42_getcrc.md R120. -/
  | getcrc
  deriving DecidableEq, Repr

end Sys2Proof
end

