-- ==== Sys2Proof/Machine/Operands.lean ====
section
/-! DEFINITION. Operand classes and the assembly of an operand from the field `arg` of a command word
(spec/30_encoding.md R56, R57, R58), and the zero extension of a one-bit value (R60). -/

namespace Sys2Proof.Machine

/-- The operand classes of R57. -/
inductive OperandClass where
  /-- A 32-bit value, any value legal. -/
  | u32
  /-- A 1-bit value, 1 true and 0 false. -/
  | bool
  /-- An 8-bit value. -/
  | byte
  /-- No operand. -/
  | none
  deriving DecidableEq, Repr

/-- How many bits an operand of the class has (R57). -/
def OperandClass.width : OperandClass → Nat
  | .u32 => 32
  | .bool => 1
  | .byte => 8
  | .none => 0

/-- The operand bits the class does not use are zero (R58): `arg[31:1]` for `BOOL`, `arg[31:8]` for
`BYTE`, all of `arg` for `NONE`. -/
def OperandClass.admits (c : OperandClass) (arg : Word) : Bool :=
  match c with
  | .u32 => true
  | .bool => arg.extractLsb' 1 31 == 0#31
  | .byte => arg.extractLsb' 8 24 == 0#24
  | .none => arg == 0#32

/-- A number an assembler may write for an operand of the class (R64). -/
def OperandClass.inRange (c : OperandClass) (n : Nat) : Bool :=
  decide (n < 2 ^ c.width)

/-- A `BOOL` operand is `arg[0]` (R58). -/
def boolOperand (arg : Word) : Bool := arg.getLsbD 0

/-- A `BYTE` operand is `arg[7:0]` (R58). -/
def byteOperand (arg : Word) : Byte := arg.extractLsb' 0 8

/-- `zext_32` of a one-bit value (spec/00_scope.md R8): 1 for true, 0 for false. -/
def zextBool (b : Bool) : Word := (BitVec.ofBool b).setWidth 32

/-- `zext_32` of a byte (R8). -/
def zextByte (b : Byte) : Word := b.setWidth 32

/-- The operand class of each command, the column of R56. -/
def operandClass : Instr → OperandClass
  | .setpoly _ => .u32
  | .getpoly => .none
  | .setstart _ => .u32
  | .getstart => .none
  | .setend _ => .u32
  | .getend => .none
  | .setrevin _ => .bool
  | .getrevin => .none
  | .setrevout _ => .bool
  | .getrevout => .none
  | .reset => .none
  | .addb _ => .byte
  | .getcrc => .none

/-- The field `arg` of a command's word (R56): the operand, its unused bits zero. -/
def argField : Instr → Word
  | .setpoly p => p
  | .getpoly => 0
  | .setstart v => v
  | .getstart => 0
  | .setend v => v
  | .getend => 0
  | .setrevin b => zextBool b
  | .getrevin => 0
  | .setrevout b => zextBool b
  | .getrevout => 0
  | .reset => 0
  | .addb b => zextByte b
  | .getcrc => 0

end Sys2Proof.Machine
end

