-- ==== Sys2Proof/Config.lean ====
section
/-! DEFINITION. The configuration record (spec/10_state.md R20) and the one parameter of the block,
`DEFAULT_CFG` (spec/00_scope.md R6, spec/92_eei_decisions.md D8). -/

namespace Sys2Proof

/-- `CFG`, the five configuration registers (spec/10_state.md R20 to R25). Every value of every field
is legal (R92); there are no reserved bits (R34). -/
structure CrcConfig where
  /-- `CFG.POLY` (R21): bit `i` is the coefficient of `x^i`; `x^32` is implicit. -/
  poly : Word
  /-- `CFG.START` (R22): the value `RESET` loads into `REG`. -/
  startXor : Word
  /-- `CFG.END` (R23): XORed into the read-out. -/
  endXor : Word
  /-- `CFG.REVIN` (R24); true is 1. -/
  revIn : Bool
  /-- `CFG.REVOUT` (R25); true is 1. -/
  revOut : Bool
  deriving DecidableEq, Repr

/-- `DEFAULT_CFG`, the device constant (R6, R31). The spec leaves its value OPEN: it is an ARGUMENT of
the model. The argument itself is the first argument of `Machine.stepWith` and `Machine.State.powerOn`,
and every statement about a power-on reset is made for all of its values. The interface to the host
(`State.reset`, `step`) has no room for an argument, so it is instantiated there with this value, the
instance R31 recommends ("the only one a source word points at"), all zeros.
DESIGN CHOICE (notes/assumptions/1.md), unsafe: a claim that rests on the zeros holds only for a
device whose default configuration is all zero. -/
def Config.defaultCfg : CrcConfig :=
  { poly := 0, startXor := 0, endXor := 0, revIn := false, revOut := false }

end Sys2Proof
end

