-- ==== Sys2Proof/Machine/State.lean ====
section
/-! DEFINITION. The state: the block's own 98 bits (spec/10_state.md R20), and beside them the two ends
of its command port (spec/30_encoding.md R59), which the spec keeps outside its `State` (R32) and this
model has to hold because a step of `Host.Core` takes a state alone and answers a state alone
(notes/assumptions/2.md, notes/assumptions/3.md). -/

namespace Sys2Proof.Machine

/-- The state of the block, exactly the record of R20: `CFG` and the accumulator `REG`. No program
counter, no flags, no memory, no mode (R29, R40, R171). -/
structure Block where
  /-- The five configuration registers (R21 to R25). -/
  cfg : CrcConfig
  /-- `REG`, the LFSR accumulator (R26). -/
  reg : Word
  deriving DecidableEq, Repr

/-- What the host can do at the port (spec/70_reset_and_hazards.md R195, H-1 to H-3): present one
command word, assigned or not, or request the power-on reset between commands. -/
inductive HostEvent where
  /-- `cmd_valid` with the word on `cmd` (R59). -/
  | command (w : CmdWord)
  /-- `por` (R59, R185), between commands (R193). -/
  | powerOnReset
  deriving DecidableEq, Repr

/-- The machine: the block, and beside it what the host holds at the two ends of the port. The block's own
`State` in the sense of R20 and R32 is the field `block` alone; what it does by itself, with the command as
an argument and the response returned and stored nowhere, is `transition` (Machine/Transition.lean). -/
structure State where
  /-- The block's own state. -/
  block : Block
  /-- The model's own field, host data (R32): what the host presents next, in order, the first next. -/
  pending : List HostEvent
  /-- The model's own field, host data (R32, R192): the responses produced so far, oldest first. -/
  responses : List Word
  deriving DecidableEq, Repr

/-- The exceptions the block can raise: none (spec/60_exceptions.md R165, R166). Nothing raises one, so
there is no constructor, and no step ever ends in a fault. -/
inductive Fault where
  deriving DecidableEq, Repr

/-- Why the model has no transition. -/
inductive Refusal where
  /-- Raised only by an arm of `exec` that has no meaning yet; no arm is left so. Safe. -/
  | notModelled (mnemonic : String)
  /-- Raised by `step` when the word presented is unassigned: it has no meaning, the model refuses it
  and no claim is made about the run (R62, R195 H-3). Safe. -/
  | unassignedWord (w : CmdWord)
  deriving DecidableEq, Repr

/-- The machine right after power-on reset (R31, R185): `CFG` is `DEFAULT_CFG`, `REG` is
`DEFAULT_CFG.START`; no word has been presented and no response produced. `DEFAULT_CFG` is the
instance named in Config.lean (notes/assumptions/1.md, unsafe). -/
def State.reset : State :=
  { block := { cfg := Config.defaultCfg, reg := Config.defaultCfg.startXor },
    pending := [],
    responses := [] }

end Sys2Proof.Machine
end

