-- ==== Sys2Proof/Machine/Ops.lean ====
section
/-! DEFINITION. The named operations over the registers, the completion of a command, and the power-on
reset. The block has no memory (spec/20_memory.md R40), so there are no memory operations, and no
exceptions, interrupts or traps (spec/60_exceptions.md R165 to R170), so there is no exception entry
and no return from one: the power-on reset is the one event beside a command. -/

namespace Sys2Proof.Machine

/-- `CFG.POLY <- p` (R81). -/
def Block.setPoly (b : Block) (p : Word) : Block := { b with cfg := { b.cfg with poly := p } }

/-- `CFG.START <- v` (R83). -/
def Block.setStart (b : Block) (v : Word) : Block := { b with cfg := { b.cfg with startXor := v } }

/-- `CFG.END <- v` (R85). -/
def Block.setEnd (b : Block) (v : Word) : Block := { b with cfg := { b.cfg with endXor := v } }

/-- `CFG.REVIN <- v` (R87). -/
def Block.setRevIn (b : Block) (v : Bool) : Block := { b with cfg := { b.cfg with revIn := v } }

/-- `CFG.REVOUT <- v` (R89). -/
def Block.setRevOut (b : Block) (v : Bool) : Block := { b with cfg := { b.cfg with revOut := v } }

/-- `REG <- v` (R100, R101). -/
def Block.setReg (b : Block) (v : Word) : Block := { b with reg := v }

/-- The block after a power-on reset of a device whose constant `DEFAULT_CFG` is `d` (R31, R185). -/
def Block.powerOn (d : CrcConfig) : Block := { cfg := d, reg := d.startXor }

/-- The machine as `State.reset` gives it, for any device constant (R31, R185). -/
def State.powerOn (d : CrcConfig) : State :=
  { block := Block.powerOn d, pending := [], responses := [] }

/-- A command's own part: from the block's state the block's state and the response, the type R9 gives
`exec`. The response is returned and stored nowhere (R32). -/
abbrev BlockStep := Block → Block × Option Word

/-- A command completes: all its writes are in place, and its response, if it has one, is on the port
(R46, R59, R60). Every command always succeeds (R165). -/
def complete (b : Block) (resp : Option Word) (s : State) : Host.Outcome State Fault Refusal :=
  .next { s with block := b, responses := s.responses ++ resp.toList }

/-- A command at the port: the block takes its own step, and the response it returns is handed to the host,
whose list of the responses so far `State` keeps for it (notes/assumptions/3.md). -/
def atPort (f : BlockStep) (s : State) : Host.Outcome State Fault Refusal :=
  complete (f s.block).1 (f s.block).2 s

end Sys2Proof.Machine
end

