-- ==== Sys2Proof/Machine/Accumulator.lean ====
section
/-! DEFINITION. The LFSR accumulator (spec/41_reset_add.md): its shift network as pure functions, and
the two commands that write `REG`. -/

namespace Sys2Proof.Machine

/-- `mix(r, t) = r xor (zext_32(t) << 24)` (R104). -/
def mix (r : Word) (t : Byte) : Word := r ^^^ (zextByte t <<< 24)

/-- `lfsr_bit(r, p)`, one shift of the LFSR; the test reads bit 31 before the shift (R102). -/
def lfsrBit (r p : Word) : Word := if r.getLsbD 31 then (r <<< 1) ^^^ p else r <<< 1

/-- `r_k` of R103: `k` shifts under the same `p`. -/
def lfsrShifts (p r : Word) : Nat → Word
  | 0 => r
  | k + 1 => lfsrBit (lfsrShifts p r k) p

/-- `lfsr_byte(r, p) = r_8` (R103). -/
def lfsrByte (r p : Word) : Word := lfsrShifts p r 8

/-- The byte as it enters the accumulator: reversed when `CFG.REVIN` is 1 (R42, R101). -/
def inputByte (ri : Bool) (b : Byte) : Byte := if ri then rev8 b else b

/-- `addb_fn(p, ri, r, b)` (R101). -/
def addbFn (p : Word) (ri : Bool) (r : Word) (b : Byte) : Word :=
  lfsrByte (mix r (inputByte ri b)) p

/-- `fold(p, ri, r, bytes)` (R105). -/
def fold (p : Word) (ri : Bool) (r : Word) : List Byte → Word
  | [] => r
  | b :: rest => fold p ri (addbFn p ri r b) rest

/-- `RESET`: `REG <- CFG.START`, no response, the configuration kept (R100). -/
def resetEffect : BlockStep := fun b => (b.setReg b.cfg.startXor, none)

/-- `RESET` at the port. -/
def execReset (s : State) : Host.Outcome State Fault Refusal :=
  atPort resetEffect s

/-- `ADDB v`: `REG <- addb_fn(CFG.POLY, CFG.REVIN, REG, v)` under the live configuration, no response
(R101, R108). -/
def addbEffect (v : Byte) : BlockStep := fun b => (b.setReg (addbFn b.cfg.poly b.cfg.revIn b.reg v), none)

/-- `ADDB` at the port. -/
def execAddb (v : Byte) (s : State) : Host.Outcome State Fault Refusal :=
  atPort (addbEffect v) s

end Sys2Proof.Machine
end

