-- ==== Sys2Proof/Machine/Checksum.lean ====
section
/-! DEFINITION. Reading the checksum (spec/42_getcrc.md), and the checksum of a whole message as one
function (spec/44_properties.md R151). -/

namespace Sys2Proof.Machine

/-- `finalize(r, ro, e)`: reverse first, XOR second (R121). -/
def finalize (r : Word) (ro : Bool) (e : Word) : Word := (if ro then rev32 r else r) ^^^ e

/-- `crc(cfg, bs)` (R151). -/
def crc (cfg : CrcConfig) (bs : List Byte) : Word :=
  finalize (fold cfg.poly cfg.revIn cfg.startXor bs) cfg.revOut cfg.endXor

/-- `GETCRC`: `resp <- finalize(REG, CFG.REVOUT, CFG.END)` under the live configuration; no state
changes (R120, R125). -/
def getcrcEffect : BlockStep := fun b => (b, some (finalize b.reg b.cfg.revOut b.cfg.endXor))

/-- `GETCRC` at the port. -/
def execGetcrc (s : State) : Host.Outcome State Fault Refusal :=
  atPort getcrcEffect s

end Sys2Proof.Machine
end

