-- ==== Sys2Proof/Machine/ConfigRegs.lean ====
section
/-! DEFINITION. The ten configuration commands (spec/40_construction_config.md). A `SET...` command
writes its one register, every value accepted unchanged, and nothing else (R91, R92); a `GET...`
command responds with its one register and changes nothing (R91). -/

namespace Sys2Proof.Machine

/-- `SETPOLY p`: `CFG.POLY <- p` (R81). -/
def setpolyEffect (p : Word) : BlockStep := fun b => (b.setPoly p, none)

/-- `SETPOLY` at the port. -/
def execSetpoly (p : Word) (s : State) : Host.Outcome State Fault Refusal :=
  atPort (setpolyEffect p) s

/-- `GETPOLY`: `resp <- CFG.POLY` (R82). -/
def getpolyEffect : BlockStep := fun b => (b, some b.cfg.poly)

/-- `GETPOLY` at the port. -/
def execGetpoly (s : State) : Host.Outcome State Fault Refusal :=
  atPort getpolyEffect s

/-- `SETSTART v`: `CFG.START <- v`; `REG` is not loaded (R83). -/
def setstartEffect (v : Word) : BlockStep := fun b => (b.setStart v, none)

/-- `SETSTART` at the port. -/
def execSetstart (v : Word) (s : State) : Host.Outcome State Fault Refusal :=
  atPort (setstartEffect v) s

/-- `GETSTART`: `resp <- CFG.START` (R84). -/
def getstartEffect : BlockStep := fun b => (b, some b.cfg.startXor)

/-- `GETSTART` at the port. -/
def execGetstart (s : State) : Host.Outcome State Fault Refusal :=
  atPort getstartEffect s

/-- `SETEND v`: `CFG.END <- v` (R85). -/
def setendEffect (v : Word) : BlockStep := fun b => (b.setEnd v, none)

/-- `SETEND` at the port. -/
def execSetend (v : Word) (s : State) : Host.Outcome State Fault Refusal :=
  atPort (setendEffect v) s

/-- `GETEND`: `resp <- CFG.END` (R86). -/
def getendEffect : BlockStep := fun b => (b, some b.cfg.endXor)

/-- `GETEND` at the port. -/
def execGetend (s : State) : Host.Outcome State Fault Refusal :=
  atPort getendEffect s

/-- `SETREVIN v`: `CFG.REVIN <- v` (R87). -/
def setrevinEffect (v : Bool) : BlockStep := fun b => (b.setRevIn v, none)

/-- `SETREVIN` at the port. -/
def execSetrevin (v : Bool) (s : State) : Host.Outcome State Fault Refusal :=
  atPort (setrevinEffect v) s

/-- `GETREVIN`: `resp <- zext_32(CFG.REVIN)` (R88). -/
def getrevinEffect : BlockStep := fun b => (b, some (zextBool b.cfg.revIn))

/-- `GETREVIN` at the port. -/
def execGetrevin (s : State) : Host.Outcome State Fault Refusal :=
  atPort getrevinEffect s

/-- `SETREVOUT v`: `CFG.REVOUT <- v` (R89). -/
def setrevoutEffect (v : Bool) : BlockStep := fun b => (b.setRevOut v, none)

/-- `SETREVOUT` at the port. -/
def execSetrevout (v : Bool) (s : State) : Host.Outcome State Fault Refusal :=
  atPort (setrevoutEffect v) s

/-- `GETREVOUT`: `resp <- zext_32(CFG.REVOUT)` (R90). -/
def getrevoutEffect : BlockStep := fun b => (b, some (zextBool b.cfg.revOut))

/-- `GETREVOUT` at the port. -/
def execGetrevout (s : State) : Host.Outcome State Fault Refusal :=
  atPort getrevoutEffect s

end Sys2Proof.Machine
end

