-- ==== Sys2Proof/Machine/Dispatch.lean ====
section
/-! DEFINITION. One arm per command: the transition of spec/00_scope.md R9, total on the thirteen. -/

namespace Sys2Proof.Machine

def exec (i : Instr) (s : State) : Host.Outcome State Fault Refusal :=
  match i with
  | .setpoly p => Sys2Proof.Machine.execSetpoly p s
  | .getpoly => Sys2Proof.Machine.execGetpoly s
  | .setstart v => Sys2Proof.Machine.execSetstart v s
  | .getstart => Sys2Proof.Machine.execGetstart s
  | .setend v => Sys2Proof.Machine.execSetend v s
  | .getend => Sys2Proof.Machine.execGetend s
  | .setrevin b => Sys2Proof.Machine.execSetrevin b s
  | .getrevin => Sys2Proof.Machine.execGetrevin s
  | .setrevout b => Sys2Proof.Machine.execSetrevout b s
  | .getrevout => Sys2Proof.Machine.execGetrevout s
  | .reset => Sys2Proof.Machine.execReset s
  | .addb b => Sys2Proof.Machine.execAddb b s
  | .getcrc => Sys2Proof.Machine.execGetcrc s

end Sys2Proof.Machine
end

