-- ==== Sys2Proof/WellFormed.lean ====
section
/-! DEFINITION. What is well formed: an operand field of a class (spec/30_encoding.md R58), an
instruction (its operand field lies in its class), and a command word (it is assigned: it matches a
row of spec/opcode_table.json, R56, R62). The table is written here from its own match and mask
columns, apart from the decoder of Decode.lean, so that the two can be held against each other. -/

namespace Sys2Proof

/-- An instruction's operand field has zeros in the bits its class does not use. The operand types
already ensure it; `Laws/PerInstr.lean` proves it for every constructor. -/
def Instr.wf (i : Instr) : Bool :=
  (Machine.operandClass i).admits (Machine.argField i)

/-- The match and mask columns of one row of spec/opcode_table.json. -/
structure OpcodeRow where
  mnemonic : String
  pattern : CmdWord
  mask : CmdWord
  deriving DecidableEq, Repr

/-- The thirteen rows of spec/opcode_table.json. -/
def opcodeTable : List OpcodeRow :=
  [ ⟨"SETPOLY", 0x0100000000, 0xFF00000000⟩,
    ⟨"GETPOLY", 0x0200000000, 0xFFFFFFFFFF⟩,
    ⟨"SETSTART", 0x0300000000, 0xFF00000000⟩,
    ⟨"GETSTART", 0x0400000000, 0xFFFFFFFFFF⟩,
    ⟨"SETEND", 0x0500000000, 0xFF00000000⟩,
    ⟨"GETEND", 0x0600000000, 0xFFFFFFFFFF⟩,
    ⟨"SETREVIN", 0x0700000000, 0xFFFFFFFFFE⟩,
    ⟨"GETREVIN", 0x0800000000, 0xFFFFFFFFFF⟩,
    ⟨"SETREVOUT", 0x0900000000, 0xFFFFFFFFFE⟩,
    ⟨"GETREVOUT", 0x0A00000000, 0xFFFFFFFFFF⟩,
    ⟨"RESET", 0x0B00000000, 0xFFFFFFFFFF⟩,
    ⟨"ADDB", 0x0C00000000, 0xFFFFFFFF00⟩,
    ⟨"GETCRC", 0x0D00000000, 0xFFFFFFFFFF⟩ ]

/-- The word's bits under the row's mask are the row's match. -/
def OpcodeRow.matches (r : OpcodeRow) (w : CmdWord) : Bool :=
  (w &&& r.mask) == r.pattern

/-- The command word is assigned: some row of the table matches it (R62; the unassigned words are
listed in spec/93_implementation_defined.md U5). -/
def assignedWord (w : CmdWord) : Bool :=
  opcodeTable.any fun r => r.matches w

end Sys2Proof
end

