-- ==== Sys2Proof/Decode.lean ====
section
/-! DEFINITION. The command word (spec/30_encoding.md R56), the total decoder of R61, which rejects an
unassigned word by name (R62), and the encoder, its inverse on commands. -/

namespace Sys2Proof

/-- Why a word is no command. All unassigned words are alike (R62). -/
inductive DecodeError where
  /-- `decode` maps the word to `Unassigned` (R61, R62). -/
  | unassigned (w : CmdWord)
  deriving DecidableEq, Repr

/-- `op = cmd[39:32]` (R56). -/
def opField (w : CmdWord) : BitVec 8 := w.extractLsb' 32 8

/-- `arg = cmd[31:0]` (R56). -/
def operandField (w : CmdWord) : Word := w.extractLsb' 0 32

/-- The word `op : arg` (R56). -/
def commandWord (op : BitVec 8) (arg : Word) : CmdWord := op ++ arg

/-- `i` where the operand field has zeros in the bits class `c` does not use, else unassigned (R58, R61). -/
def admitted (c : Machine.OperandClass) (w : CmdWord) (i : Instr) : Except DecodeError Instr :=
  if c.admits (operandField w) then .ok i else .error (.unassigned w)

/-- R61, clause by clause. -/
def decode (w : CmdWord) : Except DecodeError Instr :=
  match opField w with
  | 0x01#8 => .ok (.setpoly (operandField w))
  | 0x02#8 => admitted .none w .getpoly
  | 0x03#8 => .ok (.setstart (operandField w))
  | 0x04#8 => admitted .none w .getstart
  | 0x05#8 => .ok (.setend (operandField w))
  | 0x06#8 => admitted .none w .getend
  | 0x07#8 => admitted .bool w (.setrevin (Machine.boolOperand (operandField w)))
  | 0x08#8 => admitted .none w .getrevin
  | 0x09#8 => admitted .bool w (.setrevout (Machine.boolOperand (operandField w)))
  | 0x0A#8 => admitted .none w .getrevout
  | 0x0B#8 => admitted .none w .reset
  | 0x0C#8 => admitted .byte w (.addb (Machine.byteOperand (operandField w)))
  | 0x0D#8 => admitted .none w .getcrc
  | _ => .error (.unassigned w)

/-- The opcode numbers of R56. -/
def opcode : Instr → BitVec 8
  | .setpoly _ => 0x01
  | .getpoly => 0x02
  | .setstart _ => 0x03
  | .getstart => 0x04
  | .setend _ => 0x05
  | .getend => 0x06
  | .setrevin _ => 0x07
  | .getrevin => 0x08
  | .setrevout _ => 0x09
  | .getrevout => 0x0A
  | .reset => 0x0B
  | .addb _ => 0x0C
  | .getcrc => 0x0D

/-- `encode`, the one word that decodes to the command (R61). -/
def encode (i : Instr) : CmdWord := commandWord (opcode i) (Machine.argField i)

/-- The command word whose bits the opcode table numbers: its row's `nbits` bits are those of `w`, the
bits above them are 0. The table reads the word as one number, bit 0 its least significant bit
(spec/98_reader.md), as R56 does. -/
def tableWord (nbits w : Nat) : CmdWord := BitVec.ofNat 40 (w % 2 ^ nbits)

/-- What the decoder reads from the word of an opcode-table row. -/
def decodeTableWord (nbits w : Nat) : Option Instr := (decode (tableWord nbits w)).toOption

end Sys2Proof
end

