-- ==== Sys2Proof/Machine/Port.lean ====
section
/-! DEFINITION. The command port (spec/30_encoding.md R59): the block fetches nothing; the host presents
one word at a time, and each transaction is whole before the next (spec/20_memory.md R46, R48, R51). -/

namespace Sys2Proof.Machine

/-- What the port hands the block next. -/
inductive Presented where
  /-- Nothing is presented. -/
  | nothing
  /-- The power-on reset, and the machine with that event taken from the port. -/
  | powerOnReset (s : State)
  /-- An assigned word, decoded, and the machine with that word taken from the port. -/
  | command (i : Instr) (s : State)
  /-- A word that decodes to no command. -/
  | unassigned (w : CmdWord)
  deriving DecidableEq, Repr

/-- The machine with the rest of the port's events still to come. -/
def State.withPending (s : State) (evs : List HostEvent) : State := { s with pending := evs }

/-- A presented word: decoded, or named as unassigned (R61, R62). -/
def presentWord (w : CmdWord) (s : State) : Presented :=
  match decode w with
  | .ok i => .command i s
  | .error _ => .unassigned w

/-- The next event at the port, in the order the host presents them (R48). -/
def nextPresented (s : State) : Presented :=
  match s.pending with
  | [] => .nothing
  | .powerOnReset :: rest => .powerOnReset (s.withPending rest)
  | .command w :: rest => presentWord w (s.withPending rest)

/-- Nothing is presented: "Between commands the block simply holds its state" (R177).
DEDUCED (notes/assumptions/4.md). -/
def idleStep (s : State) : Host.Outcome State Fault Refusal := .next s

/-- The power-on reset (R185): the block's six registers take their power-on values; no response. What
the host has still to present and the responses it has got are the host's, and stay. -/
def powerOnStep (d : CrcConfig) (s : State) : Host.Outcome State Fault Refusal :=
  .next { s with block := Block.powerOn d }

/-- An unassigned word has no transition: the model refuses it (R62). -/
def refuseStep (w : CmdWord) : Host.Outcome State Fault Refusal := .refused (.unassignedWord w)

/-- The host presents `w` as the very next word. -/
def presentFirst (w : CmdWord) (s : State) : State := s.withPending (.command w :: s.pending)

end Sys2Proof.Machine
end

