-- ==== Sys2Proof/Machine/Step.lean ====
section
/-! DEFINITION. One transaction at the port is one step (spec/20_memory.md R46; the model has no time,
spec/70_reset_and_hazards.md R191). -/

namespace Sys2Proof.Machine

/-- One step of a device whose constant `DEFAULT_CFG` is `d`, the argument of the model (R6, R9). -/
def stepWith (d : CrcConfig) (s : State) : Host.Outcome State Fault Refusal :=
  match nextPresented s with
  | .nothing => idleStep s
  | .powerOnReset s' => powerOnStep d s'
  | .command i s' => exec i s'
  | .unassigned w => refuseStep w

/-- One step of the machine the host sees: `stepWith` at the instance named in Config.lean. -/
def step (s : State) : Host.Outcome State Fault Refusal := stepWith Config.defaultCfg s

/-- The machine with the opcode-table word `w` presented next (notes/assumptions/2.md). -/
def State.withFetchWord (s : State) (nbits w : Nat) : State := presentFirst (tableWord nbits w) s

end Sys2Proof.Machine
end

