-- ==== Sys2Proof/Machine/Pseudo.lean ====
section
/-! DEFINITION. The two pseudo-instructions (spec/30_encoding.md R65): each stands for a fixed sequence
of commands and has no encoding of its own. -/

namespace Sys2Proof.Machine

/-- `CONSTRUCT p, s, e, ri, ro` (spec/40_construction_config.md R80). -/
def constructExpansion (p s e : Word) (ri ro : Bool) : List Instr :=
  [.setpoly p, .setstart s, .setend e, .setrevin ri, .setrevout ro, .reset]

/-- `ADD b0, b1, ...` (spec/41_reset_add.md R105): one `ADDB` per byte, in order; none for no bytes (R106). -/
def addExpansion (bs : List Byte) : List Instr := bs.map fun b => .addb b

end Sys2Proof.Machine
end

