-- ==== Sys2Proof/Machine/Assembler.lean ====
section
/-! DEFINITION. The assembler syntax of spec/30_encoding.md R64, one command or pseudo-instruction (R65)
a line. A line that is an assembly error emits nothing. What R64 leaves to the reader (blanks between
tokens, letter case of hexadecimal digits, the empty string) is notes/assumptions/5.md. -/

namespace Sys2Proof.Machine

/-- Why a line is an assembly error. -/
inductive AsmError where
  /-- A string with no closing quote, or with a character R64 does not admit. -/
  | badString
  /-- An operand that is neither a number nor a string, or operands not separated by single commas. -/
  | badOperands
  /-- The line's first token is no mnemonic of R56 or R65. -/
  | unknownMnemonic
  /-- The wrong number or kind of operands, or an operand outside its class (R64). -/
  | operandOutsideClass
  deriving DecidableEq, Repr

/-- The tokens of a line. -/
inductive AsmToken where
  | atom (cs : List Char)
  | text (bs : List Byte)
  | comma
  deriving DecidableEq, Repr

/-- Where the reader of a line stands: between tokens, in an atom, in a string (what it has read of it,
last character first). -/
inductive AsmMode where
  | between
  | inAtom (acc : List Char)
  | inText (acc : List Byte)
  deriving DecidableEq, Repr

/-- The kinds of character the grammar of R64 tells apart outside a string. -/
inductive CharKind where
  | comment
  | blank
  | comma
  | quote
  | other
  deriving DecidableEq, Repr

/-- Space and tab separate tokens, `;` (59) opens the comment, `,` (44) and `"` (34) as in R64. -/
def charKind (c : Char) : CharKind :=
  if c.toNat = 59 then .comment
  else if c.toNat = 32 ∨ c.toNat = 9 then .blank
  else if c.toNat = 44 then .comma
  else if c.toNat = 34 then .quote
  else .other

/-- A printable ASCII character (R64). -/
def isPrintable (c : Char) : Bool := decide (32 ≤ c.toNat ∧ c.toNat ≤ 126)

/-- The ASCII code of a character (R65). -/
def asciiByte (c : Char) : Byte := BitVec.ofNat 8 c.toNat

/-- The tokens of a line up to its comment (R64). R64's grammar says nothing of blanks. DESIGN CHOICE
(notes/assumptions/5.md): a comma or a string ends the token before it with no blank between, so a string may
follow its mnemonic at once; two tokens that are neither need a blank between them. -/
def tokenize : AsmMode → List Char → Except AsmError (List AsmToken)
  | .between, [] => .ok []
  | .inAtom acc, [] => .ok [.atom acc.reverse]
  | .inText _, [] => .error .badString
  | .between, c :: cs =>
    match charKind c with
    | .comment => .ok []
    | .blank => tokenize .between cs
    | .comma => (tokenize .between cs).map (AsmToken.comma :: ·)
    | .quote => tokenize (.inText []) cs
    | .other => tokenize (.inAtom [c]) cs
  | .inAtom acc, c :: cs =>
    match charKind c with
    | .comment => .ok [.atom acc.reverse]
    | .blank => (tokenize .between cs).map (AsmToken.atom acc.reverse :: ·)
    | .comma => (tokenize .between cs).map (fun ts => .atom acc.reverse :: .comma :: ts)
    | .quote => (tokenize (.inText []) cs).map (AsmToken.atom acc.reverse :: ·)
    | .other => tokenize (.inAtom (c :: acc)) cs
  | .inText acc, c :: cs =>
    match charKind c with
    | .quote => (tokenize .between cs).map (AsmToken.text acc.reverse :: ·)
    | .comment => tokenize (.inText (asciiByte c :: acc)) cs
    | .blank => if isPrintable c then tokenize (.inText (asciiByte c :: acc)) cs else .error .badString
    | .comma => tokenize (.inText (asciiByte c :: acc)) cs
    | .other => if isPrintable c then tokenize (.inText (asciiByte c :: acc)) cs else .error .badString

/-- The value of a decimal or hexadecimal digit. -/
def digitValue (c : Char) : Option Nat :=
  if 48 ≤ c.toNat ∧ c.toNat ≤ 57 then some (c.toNat - 48)
  else if 65 ≤ c.toNat ∧ c.toNat ≤ 70 then some (c.toNat - 55)
  else if 97 ≤ c.toNat ∧ c.toNat ≤ 102 then some (c.toNat - 87)
  else none

/-- The number a run of digits of the given base writes, continuing from `acc`. -/
def digitsValue (base : Nat) : Nat → List Char → Option Nat
  | acc, [] => some acc
  | acc, c :: cs =>
    match digitValue c with
    | some d => if d < base then digitsValue base (base * acc + d) cs else none
    | none => none

/-- `number ::= "0x" hexdigits | decimaldigits` (R64); at least one digit. -/
def numberValue : List Char → Option Nat
  | [] => none
  | ['0', 'x'] => none
  | '0' :: 'x' :: cs => digitsValue 16 0 cs
  | c :: cs => digitsValue 10 0 (c :: cs)

/-- An operand of a line (R64). -/
inductive AsmOperand where
  | num (n : Nat)
  | text (bs : List Byte)
  deriving DecidableEq, Repr

/-- `operand ::= number | string` (R64). -/
def operandOf : AsmToken → Except AsmError AsmOperand
  | .atom cs =>
    match numberValue cs with
    | some n => .ok (.num n)
    | none => .error .badOperands
  | .text bs => .ok (.text bs)
  | .comma => .error .badOperands

/-- The operands after the first, each behind its comma (R64). -/
def moreOperands : List AsmToken → Except AsmError (List AsmOperand)
  | [] => .ok []
  | .comma :: t :: ts => do
    let o ← operandOf t
    let os ← moreOperands ts
    .ok (o :: os)
  | _ :: _ => .error .badOperands

/-- `[ operand { "," operand } ]` (R64). -/
def operandList : List AsmToken → Except AsmError (List AsmOperand)
  | [] => .ok []
  | t :: ts => do
    let o ← operandOf t
    let os ← moreOperands ts
    .ok (o :: os)

/-- The mnemonics of R56 and the pseudo-instructions of R65. -/
inductive Mnemonic where
  | setpoly
  | getpoly
  | setstart
  | getstart
  | setend
  | getend
  | setrevin
  | getrevin
  | setrevout
  | getrevout
  | reset
  | addb
  | getcrc
  | add
  | construct
  deriving DecidableEq, Repr

/-- The spelling of each mnemonic, in capitals (R64). -/
def mnemonicTable : List (String × Mnemonic) :=
  [ ("SETPOLY", .setpoly), ("GETPOLY", .getpoly), ("SETSTART", .setstart), ("GETSTART", .getstart),
    ("SETEND", .setend), ("GETEND", .getend), ("SETREVIN", .setrevin), ("GETREVIN", .getrevin),
    ("SETREVOUT", .setrevout), ("GETREVOUT", .getrevout), ("RESET", .reset), ("ADDB", .addb),
    ("GETCRC", .getcrc), ("ADD", .add), ("CONSTRUCT", .construct) ]

/-- The mnemonic a token spells. -/
def mnemonicOf (cs : List Char) : Option Mnemonic :=
  (mnemonicTable.find? fun r => r.1.toList == cs).map Prod.snd

/-- A `U32` operand: a number in 0 to `0xFFFFFFFF` (R64). -/
def u32Of : AsmOperand → Option Word
  | .num n => if OperandClass.u32.inRange n then some (BitVec.ofNat 32 n) else none
  | .text _ => none

/-- A `BOOL` operand: `0` or `1` (R64). -/
def boolOf : AsmOperand → Option Bool
  | .num n => if OperandClass.bool.inRange n then some (n == 1) else none
  | .text _ => none

/-- A `BYTE` operand: a number in 0 to `0xFF` (R64). -/
def byteOf : AsmOperand → Option Byte
  | .num n => if OperandClass.byte.inRange n then some (BitVec.ofNat 8 n) else none
  | .text _ => none

/-- The commands a mnemonic with its operands stands for, or nothing where the operands do not fit it
(R64, R65). -/
def expandLine : Mnemonic → List AsmOperand → Option (List Instr)
  | .setpoly, [o] => (u32Of o).map fun p => [.setpoly p]
  | .getpoly, [] => some [.getpoly]
  | .setstart, [o] => (u32Of o).map fun v => [.setstart v]
  | .getstart, [] => some [.getstart]
  | .setend, [o] => (u32Of o).map fun v => [.setend v]
  | .getend, [] => some [.getend]
  | .setrevin, [o] => (boolOf o).map fun b => [.setrevin b]
  | .getrevin, [] => some [.getrevin]
  | .setrevout, [o] => (boolOf o).map fun b => [.setrevout b]
  | .getrevout, [] => some [.getrevout]
  | .reset, [] => some [.reset]
  | .addb, [o] => (byteOf o).map fun b => [.addb b]
  | .getcrc, [] => some [.getcrc]
  | .add, [.text bs] => some (addExpansion bs)
  | .add, os => (os.mapM byteOf).map addExpansion
  | .construct, [p, s, e, ri, ro] => do
    let p ← u32Of p
    let s ← u32Of s
    let e ← u32Of e
    let ri ← boolOf ri
    let ro ← boolOf ro
    some (constructExpansion p s e ri ro)
  | _, _ => none

/-- The commands of one line's tokens (R64). -/
def assembleTokens : List AsmToken → Except AsmError (List Instr)
  | [] => .ok []
  | .atom cs :: ts => do
    match mnemonicOf cs with
    | none => .error .unknownMnemonic
    | some m =>
      let os ← operandList ts
      match expandLine m os with
      | some is => .ok is
      | none => .error .operandOutsideClass
  | _ :: _ => .error .unknownMnemonic

/-- The commands of one line, or why it is an assembly error (R64). -/
def assembleLine (line : String) : Except AsmError (List Instr) := do
  let ts ← tokenize .between line.toList
  assembleTokens ts

/-- The command words one line emits; none where the line is an assembly error (R64). -/
def emitLine (line : String) : List CmdWord :=
  match assembleLine line with
  | .ok is => is.map encode
  | .error _ => []

/-- The command words a program of lines emits, in order. -/
def assemble (lines : List String) : List CmdWord := lines.flatMap emitLine

end Sys2Proof.Machine
end

