-- ==== Sys2Proof/Machine/Stream.lean ====
section
/-! DEFINITION. Command streams: a finite list of commands the host presents in order (spec/00_scope.md
R10, spec/30_encoding.md R67). The state after a stream is the left fold of `exec` (spec/20_memory.md
R48), and the end of a run is the state after the last command with the responses produced (R192). -/

namespace Sys2Proof.Machine

/-- Sequencing of outcomes: a stop ends the run (R62). -/
def andThen (o : Host.Outcome State Fault Refusal) (f : State → Host.Outcome State Fault Refusal) :
    Host.Outcome State Fault Refusal :=
  match o with
  | .next s => f s
  | .fault r => .fault r
  | .refused r => .refused r

/-- The left fold of `exec` over a stream (R48). -/
def execAll : List Instr → State → Host.Outcome State Fault Refusal
  | [], s => .next s
  | i :: rest, s => andThen (exec i s) (execAll rest)

/-- `k` steps of a device whose `DEFAULT_CFG` is `d`. -/
def stepsWith (d : CrcConfig) : Nat → State → Host.Outcome State Fault Refusal
  | 0, s => .next s
  | k + 1, s => andThen (stepWith d s) (stepsWith d k)

/-- The host's events for a stream: each command's word, in order (R59, R61). -/
def presented (is : List Instr) : List HostEvent := is.map fun i => .command (encode i)

/-- The command produces a response: the `GET...` commands and only they (R60). -/
def isGet : Instr → Bool
  | .setpoly _ => false
  | .getpoly => true
  | .setstart _ => false
  | .getstart => true
  | .setend _ => false
  | .getend => true
  | .setrevin _ => false
  | .getrevin => true
  | .setrevout _ => false
  | .getrevout => true
  | .reset => false
  | .addb _ => false
  | .getcrc => true

/-- The bytes of the `ADDB` commands of a stream, in order (R27, R41). -/
def streamBytes : List Instr → List Byte
  | [] => []
  | .addb b :: rest => b :: streamBytes rest
  | .setpoly _ :: rest => streamBytes rest
  | .getpoly :: rest => streamBytes rest
  | .setstart _ :: rest => streamBytes rest
  | .getstart :: rest => streamBytes rest
  | .setend _ :: rest => streamBytes rest
  | .getend :: rest => streamBytes rest
  | .setrevin _ :: rest => streamBytes rest
  | .getrevin :: rest => streamBytes rest
  | .setrevout _ :: rest => streamBytes rest
  | .getrevout :: rest => streamBytes rest
  | .reset :: rest => streamBytes rest
  | .getcrc :: rest => streamBytes rest

end Sys2Proof.Machine
end

