-- ==== Sys2Proof/Machine/HostApi.lean ====
section
/-! DEFINITION. The source's interface table and the hardware form each row takes (spec/30_encoding.md
R55): what the host sends the port for one call, and what the source says the call does. Here stands
the host side of `add(data, length)` with its one refusal (spec/41_reset_add.md R107). -/

namespace Sys2Proof.Machine

/-- The rows of the source's interface table (R55). -/
inductive ApiCall where
  | constructDefault
  | construct (p s e : Word) (ri ro : Bool)
  | setPolynomial (p : Word)
  | getPolynomial
  | setStartXor (v : Word)
  | getStartXor
  | setEndXor (v : Word)
  | getEndXor
  | setReverseInput (b : Bool)
  | getReverseInput
  | setReverseOutput (b : Bool)
  | getReverseOutput
  | reset
  /-- `add(data, length)`; the source gives `length` no range but "integer" (N14). -/
  | add (data : List Byte) (length : Int)
  | getCRC
  deriving DecidableEq, Repr

/-- Why the host side of a call has no meaning. -/
inductive ApiRefusal where
  /-- `add` with `length` outside `0 .. number of bytes in data` (R107, R195 H-6). -/
  | lengthOutOfRange (length : Int)
  deriving DecidableEq, Repr

/-- The host side of `add(data, length)`: the first `length` bytes, or a refusal; it never pads, stops
early or draws bytes (R107, spec/93_implementation_defined.md U2). -/
def hostAdd (data : List Byte) (length : Int) : Except ApiRefusal (List Instr) :=
  if 0 ≤ length ∧ length ≤ data.length then .ok (addExpansion (data.take length.toNat))
  else .error (.lengthOutOfRange length)

/-- What the host sends the port for a call: the third column of R55. -/
def ApiCall.events : ApiCall → Except ApiRefusal (List HostEvent)
  | .constructDefault => .ok [.powerOnReset]
  | .construct p s e ri ro => .ok (presented (constructExpansion p s e ri ro))
  | .setPolynomial p => .ok (presented [.setpoly p])
  | .getPolynomial => .ok (presented [.getpoly])
  | .setStartXor v => .ok (presented [.setstart v])
  | .getStartXor => .ok (presented [.getstart])
  | .setEndXor v => .ok (presented [.setend v])
  | .getEndXor => .ok (presented [.getend])
  | .setReverseInput b => .ok (presented [.setrevin b])
  | .getReverseInput => .ok (presented [.getrevin])
  | .setReverseOutput b => .ok (presented [.setrevout b])
  | .getReverseOutput => .ok (presented [.getrevout])
  | .reset => .ok (presented [.reset])
  | .add data length => (hostAdd data length).map presented
  | .getCRC => .ok (presented [.getcrc])

/-- What the source says a call does to the engine of a device whose `DEFAULT_CFG` is `d`, and its
output (R55). A boolean output is the 32-bit value of R60. -/
def ApiCall.effect (d : CrcConfig) (c : ApiCall) (b : Block) : Block × Option Word :=
  match c with
  | .constructDefault => ({ cfg := d, reg := d.startXor }, none)
  | .construct p s e ri ro =>
    ({ cfg := { poly := p, startXor := s, endXor := e, revIn := ri, revOut := ro }, reg := s }, none)
  | .setPolynomial p => (b.setPoly p, none)
  | .getPolynomial => (b, some b.cfg.poly)
  | .setStartXor v => (b.setStart v, none)
  | .getStartXor => (b, some b.cfg.startXor)
  | .setEndXor v => (b.setEnd v, none)
  | .getEndXor => (b, some b.cfg.endXor)
  | .setReverseInput v => (b.setRevIn v, none)
  | .getReverseInput => (b, some (if b.cfg.revIn then 1 else 0))
  | .setReverseOutput v => (b.setRevOut v, none)
  | .getReverseOutput => (b, some (if b.cfg.revOut then 1 else 0))
  | .reset => (b.setReg b.cfg.startXor, none)
  | .add data length =>
    (b.setReg (fold b.cfg.poly b.cfg.revIn b.reg (data.take length.toNat)), none)
  | .getCRC => (b, some (finalize b.reg b.cfg.revOut b.cfg.endXor))

end Sys2Proof.Machine
end

