-- ==== Sys2Proof/Machine/Transition.lean ====
section
/-! DEFINITION. The block by itself, in the form of spec/00_scope.md R9: its state is `Block`, a command is
an argument, and a response is returned and stored nowhere (spec/10_state.md R32). The machine of State.lean
is this block with the host's two lists beside it. -/

namespace Sys2Proof.Machine

/-- `exec : State x Command -> State x Option Response` of R9, total on the thirteen commands. The other
transition of R9, the power-on reset, is `Block.powerOn`. -/
def transition : Instr → BlockStep
  | .setpoly p => setpolyEffect p
  | .getpoly => getpolyEffect
  | .setstart v => setstartEffect v
  | .getstart => getstartEffect
  | .setend v => setendEffect v
  | .getend => getendEffect
  | .setrevin v => setrevinEffect v
  | .getrevin => getrevinEffect
  | .setrevout v => setrevoutEffect v
  | .getrevout => getrevoutEffect
  | .reset => resetEffect
  | .addb v => addbEffect v
  | .getcrc => getcrcEffect

/-- A command stream run by the block alone: the state after its last command, and the list of responses
produced as an output of the run (spec/20_memory.md R48, spec/70_reset_and_hazards.md R192). -/
def runBlock : List Instr → Block → Block × List Word
  | [], b => (b, [])
  | i :: rest, b =>
    ((runBlock rest (transition i b).1).1,
      (transition i b).2.toList ++ (runBlock rest (transition i b).1).2)

end Sys2Proof.Machine
end

