-- ==== Sys2Proof/Machine/AccessMatrix.lean ====
section
/-! DEFINITION. The access matrix of spec/10_state.md R30, transcribed row by row, and what statements
need to speak of one element of the block's state. -/

namespace Sys2Proof.Machine

/-- The six elements of the block's state (R20). -/
inductive Element where
  | poly
  | startXor
  | endXor
  | revIn
  | revOut
  | reg
  deriving DecidableEq, Repr

/-- The value an element holds; a one-bit element zero-extended. -/
def Block.get (b : Block) : Element → Word
  | .poly => b.cfg.poly
  | .startXor => b.cfg.startXor
  | .endXor => b.cfg.endXor
  | .revIn => zextBool b.cfg.revIn
  | .revOut => zextBool b.cfg.revOut
  | .reg => b.reg

/-- The elements a command's row of R30 marks `r`. -/
def readsOf : Instr → List Element
  | .setpoly _ => []
  | .getpoly => [.poly]
  | .setstart _ => []
  | .getstart => [.startXor]
  | .setend _ => []
  | .getend => [.endXor]
  | .setrevin _ => []
  | .getrevin => [.revIn]
  | .setrevout _ => []
  | .getrevout => [.revOut]
  | .reset => [.startXor]
  | .addb _ => [.poly, .revIn, .reg]
  | .getcrc => [.endXor, .revOut, .reg]

/-- The elements a command's row of R30 marks `w`. -/
def writesOf : Instr → List Element
  | .setpoly _ => [.poly]
  | .getpoly => []
  | .setstart _ => [.startXor]
  | .getstart => []
  | .setend _ => [.endXor]
  | .getend => []
  | .setrevin _ => [.revIn]
  | .getrevin => []
  | .setrevout _ => [.revOut]
  | .getrevout => []
  | .reset => [.reg]
  | .addb _ => [.reg]
  | .getcrc => []

/-- The operand column of R30: how many bits the command word carries. -/
def operandBits : Instr → Nat
  | .setpoly _ => 32
  | .getpoly => 0
  | .setstart _ => 32
  | .getstart => 0
  | .setend _ => 32
  | .getend => 0
  | .setrevin _ => 1
  | .getrevin => 0
  | .setrevout _ => 1
  | .getrevout => 0
  | .reset => 0
  | .addb _ => 8
  | .getcrc => 0

/-- The response column of R30. -/
def responseColumn (i : Instr) (b : Block) : Option Word :=
  match i with
  | .setpoly _ => none
  | .getpoly => some b.cfg.poly
  | .setstart _ => none
  | .getstart => some b.cfg.startXor
  | .setend _ => none
  | .getend => some b.cfg.endXor
  | .setrevin _ => none
  | .getrevin => some (zextBool b.cfg.revIn)
  | .setrevout _ => none
  | .getrevout => some (zextBool b.cfg.revOut)
  | .reset => none
  | .addb _ => none
  | .getcrc => some (finalize b.reg b.cfg.revOut b.cfg.endXor)

end Sys2Proof.Machine
end

