-- ==== Sys2Proof/Safety.lean ====
section
/-! DEFINITION. What counts as a safe run, in the terms the claims use: the host presents assigned words
only (spec/70_reset_and_hazards.md R195, H-2 against H-3), in any order and in any state; and the
invariant of `REG` (spec/10_state.md R27), which speaks of the commands since the last reset and so
needs a record of them beside the state. -/

namespace Sys2Proof.Machine

/-- The host event is a liberty of the host table and not its refusal H-3: a power-on reset, or an
assigned word. -/
def HostEvent.assigned : HostEvent → Bool
  | .command w => assignedWord w
  | .powerOnReset => true

/-- Everything the host has still to present is assigned. -/
def State.wellFed (s : State) : Bool := s.pending.all HostEvent.assigned

/-- No command of the stream changes what an `ADDB` folds a byte in with, and none restarts `REG`: the
proviso of R27 with "since the last reset". -/
def undisturbed : Instr → Bool
  | .setpoly _ => false
  | .getpoly => true
  | .setstart _ => true
  | .getstart => true
  | .setend _ => true
  | .getend => true
  | .setrevin _ => false
  | .getrevin => true
  | .setrevout _ => true
  | .getrevout => true
  | .reset => false
  | .addb _ => true
  | .getcrc => true

/-- What R27 speaks of: the value `CFG.START` had at the last `RESET` or power-on reset, the bytes of the
`ADDB` commands since then, and whether the proviso holds, that no `SETPOLY` and no `SETREVIN` has
executed since then. It is a record kept beside the state, no part of the machine. -/
structure SinceReset where
  seed : Word
  bytes : List Byte
  intact : Bool
  deriving DecidableEq, Repr

/-- The record just after a power-on reset of a device whose `DEFAULT_CFG` is `d`. -/
def SinceReset.powerOn (d : CrcConfig) : SinceReset :=
  { seed := d.startXor, bytes := [], intact := true }

/-- The record after a command executed in a block. -/
def SinceReset.command (h : SinceReset) (i : Instr) (b : Block) : SinceReset :=
  match i with
  | .setpoly _ => { h with intact := false }
  | .getpoly => h
  | .setstart _ => h
  | .getstart => h
  | .setend _ => h
  | .getend => h
  | .setrevin _ => { h with intact := false }
  | .getrevin => h
  | .setrevout _ => h
  | .getrevout => h
  | .reset => { seed := b.cfg.startXor, bytes := [], intact := true }
  | .addb v => { h with bytes := h.bytes ++ [v] }
  | .getcrc => h

/-- The record after one step of the machine. -/
def SinceReset.next (d : CrcConfig) (h : SinceReset) (s : State) : SinceReset :=
  match nextPresented s with
  | .nothing => h
  | .powerOnReset _ => SinceReset.powerOn d
  | .command i s' => h.command i s'.block
  | .unassigned _ => h

/-- The invariant of `REG` (R27): under the proviso, `REG` is the fold of the bytes since the last reset
from the start value of that reset. -/
def RegTracks (h : SinceReset) (s : State) : Prop :=
  h.intact = true → s.block.reg = fold s.block.cfg.poly s.block.cfg.revIn h.seed h.bytes

end Sys2Proof.Machine
end

