-- ==== Sys2Proof/Certificates/Slice0/Obligations.lean ====
section
/-! DEFINITION. The statements for the provers. Each docstring says which rule of spec/ the statement
formalises. A statement about a power-on reset is made for every value `d` of the device constant
`DEFAULT_CFG` (spec/10_state.md R31). -/

open Sys2Proof Sys2Proof.Machine

/-! ## The command word -/

/-- R66, the worked encodings: each line both ways, and the six unassigned words beside them. -/
def Obligations.WorkedEncodings : Prop :=
  (encode (.setpoly 0x04C11DB7) = 0x0104C11DB7 ∧ decode 0x0104C11DB7 = .ok (.setpoly 0x04C11DB7)) ∧
  (encode .getpoly = 0x0200000000 ∧ decode 0x0200000000 = .ok .getpoly) ∧
  (encode (.setstart 0xFFFFFFFF) = 0x03FFFFFFFF ∧ decode 0x03FFFFFFFF = .ok (.setstart 0xFFFFFFFF)) ∧
  (encode .getstart = 0x0400000000 ∧ decode 0x0400000000 = .ok .getstart) ∧
  (encode (.setend 0xFFFFFFFF) = 0x05FFFFFFFF ∧ decode 0x05FFFFFFFF = .ok (.setend 0xFFFFFFFF)) ∧
  (encode .getend = 0x0600000000 ∧ decode 0x0600000000 = .ok .getend) ∧
  (encode (.setrevin true) = 0x0700000001 ∧ decode 0x0700000001 = .ok (.setrevin true)) ∧
  (encode .getrevin = 0x0800000000 ∧ decode 0x0800000000 = .ok .getrevin) ∧
  (encode (.setrevout false) = 0x0900000000 ∧ decode 0x0900000000 = .ok (.setrevout false)) ∧
  (encode .getrevout = 0x0A00000000 ∧ decode 0x0A00000000 = .ok .getrevout) ∧
  (encode .reset = 0x0B00000000 ∧ decode 0x0B00000000 = .ok .reset) ∧
  (encode (.addb 0x31) = 0x0C00000031 ∧ decode 0x0C00000031 = .ok (.addb 0x31)) ∧
  (encode .getcrc = 0x0D00000000 ∧ decode 0x0D00000000 = .ok .getcrc) ∧
  (∀ w ∈ ([0x0000000000, 0x0E00000000, 0x0700000002, 0x0C00000100, 0x0D00000001, 0x0B80000000] :
      List CmdWord), decode w = .error (.unassigned w)) ∧
  (decode 0x0C000000FF = .ok (.addb 0xFF))

/-- R61 whole: the decoder's case table over the two fields of the word, `encode` its inverse on the
commands and on the assigned words, and the number of assigned words. -/
def Obligations.DecodeCaseTableAndInverse : Prop :=
  (∀ w : CmdWord,
    let op := w.extractLsb' 32 8
    let arg := w.extractLsb' 0 32
    (op = 0x01 → decode w = .ok (.setpoly arg)) ∧
    (op = 0x02 → decode w = if arg = 0 then .ok .getpoly else .error (.unassigned w)) ∧
    (op = 0x03 → decode w = .ok (.setstart arg)) ∧
    (op = 0x04 → decode w = if arg = 0 then .ok .getstart else .error (.unassigned w)) ∧
    (op = 0x05 → decode w = .ok (.setend arg)) ∧
    (op = 0x06 → decode w = if arg = 0 then .ok .getend else .error (.unassigned w)) ∧
    (op = 0x07 → decode w = if arg.extractLsb' 1 31 = 0 then .ok (.setrevin (arg.getLsbD 0))
      else .error (.unassigned w)) ∧
    (op = 0x08 → decode w = if arg = 0 then .ok .getrevin else .error (.unassigned w)) ∧
    (op = 0x09 → decode w = if arg.extractLsb' 1 31 = 0 then .ok (.setrevout (arg.getLsbD 0))
      else .error (.unassigned w)) ∧
    (op = 0x0A → decode w = if arg = 0 then .ok .getrevout else .error (.unassigned w)) ∧
    (op = 0x0B → decode w = if arg = 0 then .ok .reset else .error (.unassigned w)) ∧
    (op = 0x0C → decode w = if arg.extractLsb' 8 24 = 0 then .ok (.addb (arg.extractLsb' 0 8))
      else .error (.unassigned w)) ∧
    (op = 0x0D → decode w = if arg = 0 then .ok .getcrc else .error (.unassigned w)) ∧
    (op = 0x00 ∨ 0x0E ≤ op.toNat → decode w = .error (.unassigned w))) ∧
  (∀ i : Instr, decode (encode i) = .ok i) ∧
  (∀ (w : CmdWord) (i : Instr), decode w = .ok i → encode i = w) ∧
  Nat.card {w : CmdWord // ∃ i, decode w = .ok i} = 3 * 2 ^ 32 + 2 * 2 + 2 ^ 8 + 7

/-- The decoder and the opcode table (R56; the set of unassigned words is U5): a word is a command's
exactly when a row of spec/opcode_table.json matches it, and then just one row does, the row of the
opcode the command has. -/
def Obligations.DecodeMatchesOpcodeTable : Prop :=
  (∀ w : CmdWord, assignedWord w = true ↔ ∃ i, decode w = .ok i) ∧
  (∀ (w : CmdWord) (i : Instr), decode w = .ok i → ∀ (k : Nat) (r : OpcodeRow),
    opcodeTable[k]? = some r → (r.matches w = true ↔ k + 1 = (opcode i).toNat))

/-- R62: an unassigned word is refused, as that word; no step runs past it. -/
def Obligations.UnassignedWordRefused : Prop :=
  ∀ (d : CrcConfig) (s : State) (w : CmdWord) (rest : List HostEvent) (k : Nat),
    s.pending = .command w :: rest → (∀ i, decode w ≠ .ok i) →
      stepWith d s = .refused (.unassignedWord w) ∧
      stepsWith d (k + 1) s = .refused (.unassignedWord w)

/-! ## The step -/

/-- A step runs the decoded instruction: when the word presented next decodes to `i`, the step is `exec`
of `i` with that word taken from the port; and the word the host places is the one that runs. -/
def Obligations.StepRunsDecodedCommand : Prop :=
  (∀ (d : CrcConfig) (s : State) (w : CmdWord) (rest : List HostEvent) (i : Instr),
    s.pending = .command w :: rest → decode w = .ok i →
      i.wf = true ∧ stepWith d s = exec i { s with pending := rest }) ∧
  (∀ (s : State) (i : Instr), step (s.withFetchWord 40 (encode i).toNat) = exec i s)

/-- R177: with nothing presented the block holds its state. The idle step is the model's reading
(notes/assumptions/4.md). -/
def Obligations.IdleStepHoldsState : Prop :=
  ∀ (d : CrcConfig) (s : State), s.pending = [] → ∀ k, stepsWith d k s = .next s

/-- R48: the state after a stream is the left fold of `exec` over it. -/
def Obligations.StreamIsLeftFoldOfExec : Prop :=
  ∀ (d : CrcConfig) (cs : List Instr) (rest : List HostEvent) (s : State),
    s.pending = presented cs ++ rest →
      stepsWith d cs.length s = execAll cs { s with pending := rest } ∧
      ∃ t, execAll cs { s with pending := rest } = .next t ∧ t.pending = rest

/-- The host's own machine starts in the power-on state, and its run is `stepsWith`, at the instance of
`DEFAULT_CFG` that the model names; the host side is empty then. Both are the model's choice
(notes/assumptions/1.md, notes/assumptions/2.md, notes/assumptions/3.md). -/
def Obligations.CoreRunIsDefaultInstance : Prop :=
  (∀ d : CrcConfig, State.powerOn d =
    { block := { cfg := d, reg := d.startXor }, pending := [], responses := [] }) ∧
  core.reset = State.powerOn Config.defaultCfg ∧
  ∀ (k : Nat) (s : State), core.run k s = stepsWith Config.defaultCfg k s

/-- R32 and R9: what the block does by itself is `transition`, which takes the command as an argument and
returns the response, and stores neither; a run of it returns the list of responses as an output. The two
lists `Machine.State` holds beside the block are host data (the model's choice, notes/assumptions/2.md,
notes/assumptions/3.md): every command leaves `pending` alone and only adds its response to `responses`, and
from two machines that differ in `responses` alone every run ends alike, in the same block, with the same
events to come, the same new responses and the same stop. -/
def Obligations.BlockStoresNoHostData : Prop :=
  (∀ (i : Instr) (s : State), exec i s =
    .next { block := (transition i s.block).1, pending := s.pending,
            responses := s.responses ++ (transition i s.block).2.toList }) ∧
  (∀ (cs : List Instr) (s : State), execAll cs s =
    .next { block := (runBlock cs s.block).1, pending := s.pending,
            responses := s.responses ++ (runBlock cs s.block).2 }) ∧
  (∀ (d : CrcConfig) (k : Nat) (s : State) (rs : List Word),
    (∀ t, stepsWith d k s = .next t → ∃ new, t.responses = s.responses ++ new ∧
      stepsWith d k { s with responses := rs } = .next { t with responses := rs ++ new }) ∧
    (∀ r, stepsWith d k s = .refused r → stepsWith d k { s with responses := rs } = .refused r))

/-- R165: every command completes, for every operand and in every state, and there is no exception to
raise. -/
def Obligations.EveryCommandCompletes : Prop :=
  (∀ (i : Instr) (s : State), ∃ t, exec i s = .next t ∧ t.pending = s.pending) ∧
  IsEmpty Fault ∧
  (∀ (d : CrcConfig) (s : State), (∃ t, stepWith d s = .next t) ∨
    ∃ w rest, s.pending = .command w :: rest ∧ (∀ i, decode w ≠ .ok i) ∧
      stepWith d s = .refused (.unassignedWord w))

/-! ## Power-on reset -/

/-- R185 and R31: the power-on reset, requested in any state, for every device constant. The state of the
block afterwards is `(DEFAULT_CFG, DEFAULT_CFG.START)`, whatever it was, and there is no response. -/
def Obligations.PowerOnResetEffect : Prop :=
  ∀ (d : CrcConfig) (s : State) (rest : List HostEvent), s.pending = .powerOnReset :: rest →
    ∃ t, stepWith d s = .next t ∧ t.block = { cfg := d, reg := d.startXor } ∧
      t.block.reg = t.block.cfg.startXor ∧ t.pending = rest ∧ t.responses = s.responses

/-- R186, the two resets compared, each by its request at the port. -/
def Obligations.PowerOnAgainstSoftReset : Prop :=
  ∀ (d : CrcConfig) (s : State) (rest : List HostEvent),
    (s.pending = .powerOnReset :: rest →
      ∃ t, stepWith d s = .next t ∧ t.block.cfg = d ∧ t.block.reg = d.startXor ∧
        t.block.reg = t.block.cfg.startXor) ∧
    (s.pending = .command 0x0B00000000 :: rest →
      ∃ t, (∀ d', stepWith d' s = .next t) ∧ t.block.cfg = s.block.cfg ∧
        t.block.reg = s.block.cfg.startXor ∧ t.block.reg = t.block.cfg.startXor) ∧
    (s.pending = .powerOnReset :: .command 0x0B00000000 :: rest →
      ∃ t u, stepsWith d 1 s = .next t ∧ stepsWith d 2 s = .next u ∧ u.block = t.block)

/-! ## The configuration commands -/

/-- R81, `SETPOLY`: its word, its effect, what it leaves alone, and the corner cases. -/
def Obligations.SetPolyEffect : Prop :=
  ∀ (p : Word) (s : State), encode (.setpoly p) = (0x01 : BitVec 8) ++ p ∧
    ∃ t, exec (.setpoly p) s = .next t ∧ t.block.cfg.poly = p ∧
      (∀ e, e ≠ .poly → t.block.get e = s.block.get e) ∧
      t.pending = s.pending ∧ t.responses = s.responses ∧
      (p = s.block.cfg.poly → t = s) ∧
      (∀ b, ∃ u, exec (.addb b) t = .next u ∧
        u.block.reg = addbFn p s.block.cfg.revIn s.block.reg b ∧
        (p = 0 → u.block.reg = s.block.reg <<< 8))

/-- R82, `GETPOLY`: its word, its response, nothing changed; before any `SETPOLY` it is the device's. -/
def Obligations.GetPolyEffect : Prop :=
  encode .getpoly = (0x02 : BitVec 8) ++ (0 : Word) ∧
  (∀ s : State, ∃ t, exec .getpoly s = .next t ∧ t.block = s.block ∧ t.pending = s.pending ∧
    t.responses = s.responses ++ [s.block.cfg.poly]) ∧
  (∀ (d : CrcConfig) (cs : List Instr), (∀ i ∈ cs, ∀ p, i ≠ .setpoly p) →
    ∃ m t, execAll cs (State.powerOn d) = .next m ∧ exec .getpoly m = .next t ∧
      t.responses = m.responses ++ [d.poly])

/-- R83, `SETSTART`: `REG` is not loaded; a later `RESET` loads the value, and until then no read-out of
`REG` shows it. -/
def Obligations.SetStartEffect : Prop :=
  ∀ (v : Word) (s : State), encode (.setstart v) = (0x03 : BitVec 8) ++ v ∧
    ∃ t, exec (.setstart v) s = .next t ∧ t.block.cfg.startXor = v ∧
      (∀ e, e ≠ .startXor → t.block.get e = s.block.get e) ∧
      t.pending = s.pending ∧ t.responses = s.responses ∧
      (∃ u, exec .reset t = .next u ∧ u.block.reg = v) ∧
      (∀ cs : List Instr, (∀ i ∈ cs, i ≠ .reset) →
        ∃ m n, execAll cs t = .next m ∧ execAll cs s = .next n ∧ m.block.reg = n.block.reg ∧
          finalize m.block.reg m.block.cfg.revOut m.block.cfg.endXor =
            finalize n.block.reg n.block.cfg.revOut n.block.cfg.endXor)

/-- R84, `GETSTART`: the register, not the value `REG` was last loaded with. -/
def Obligations.GetStartEffect : Prop :=
  encode .getstart = (0x04 : BitVec 8) ++ (0 : Word) ∧
  (∀ s : State, ∃ t, exec .getstart s = .next t ∧ t.block = s.block ∧ t.pending = s.pending ∧
    t.responses = s.responses ++ [s.block.cfg.startXor]) ∧
  (∀ (v : Word) (s : State), ∃ t, execAll [.reset, .setstart v, .getstart] s = .next t ∧
    t.block.reg = s.block.cfg.startXor ∧ t.responses = s.responses ++ [v])

/-- R85, `SETEND`: the next `GETCRC` uses it; 0 shows the read-out of `REG` itself; two read-outs around
it differ by old xor new. -/
def Obligations.SetEndEffect : Prop :=
  ∀ (v : Word) (s : State), encode (.setend v) = (0x05 : BitVec 8) ++ v ∧
    ∃ t, exec (.setend v) s = .next t ∧ t.block.cfg.endXor = v ∧
      (∀ e, e ≠ .endXor → t.block.get e = s.block.get e) ∧
      t.pending = s.pending ∧ t.responses = s.responses ∧
      (∃ u x y, execAll [.getcrc, .setend v, .getcrc] s = .next u ∧
        u.responses = s.responses ++ [x, y] ∧ x ^^^ y = s.block.cfg.endXor ^^^ v ∧
        y = finalize s.block.reg s.block.cfg.revOut v ∧
        (v = 0 → y = if s.block.cfg.revOut then rev32 s.block.reg else s.block.reg))

/-- R86, `GETEND`. -/
def Obligations.GetEndEffect : Prop :=
  encode .getend = (0x06 : BitVec 8) ++ (0 : Word) ∧
  (∀ s : State, ∃ t, exec .getend s = .next t ∧ t.block = s.block ∧ t.pending = s.pending ∧
    t.responses = s.responses ++ [s.block.cfg.endXor]) ∧
  (∀ (d : CrcConfig) (cs : List Instr), (∀ i ∈ cs, ∀ v, i ≠ .setend v) →
    ∃ m t, execAll cs (State.powerOn d) = .next m ∧ exec .getend m = .next t ∧
      t.responses = m.responses ++ [d.endXor])

/-- R87, `SETREVIN`: the words from `0x0700000002` on are unassigned; the next `ADDB` uses the value. -/
def Obligations.SetRevInEffect : Prop :=
  (∀ w : CmdWord, 0x0700000002 ≤ w.toNat → w.toNat ≤ 0x07FFFFFFFF →
    decode w = .error (.unassigned w)) ∧
  ∀ (b : Bool) (s : State),
    encode (.setrevin b) = (0x07 : BitVec 8) ++ (if b then (1 : Word) else 0) ∧
    ∃ t, exec (.setrevin b) s = .next t ∧ t.block.cfg.revIn = b ∧
      (∀ e, e ≠ .revIn → t.block.get e = s.block.get e) ∧
      t.pending = s.pending ∧ t.responses = s.responses ∧
      (∀ v, ∃ u, exec (.addb v) t = .next u ∧
        u.block.reg = addbFn s.block.cfg.poly b s.block.reg v)

/-- R88, `GETREVIN`: the response is 1 or 0. -/
def Obligations.GetRevInEffect : Prop :=
  encode .getrevin = (0x08 : BitVec 8) ++ (0 : Word) ∧
  (∀ s : State, ∃ t, exec .getrevin s = .next t ∧ t.block = s.block ∧ t.pending = s.pending ∧
    t.responses = s.responses ++ [if s.block.cfg.revIn then 0x00000001 else 0x00000000])

/-- R89, `SETREVOUT`: `REG` keeps its value; the next `GETCRC` uses the new one. -/
def Obligations.SetRevOutEffect : Prop :=
  (∀ w : CmdWord, 0x0900000002 ≤ w.toNat → w.toNat ≤ 0x09FFFFFFFF →
    decode w = .error (.unassigned w)) ∧
  ∀ (b : Bool) (s : State),
    encode (.setrevout b) = (0x09 : BitVec 8) ++ (if b then (1 : Word) else 0) ∧
    ∃ t, exec (.setrevout b) s = .next t ∧ t.block.cfg.revOut = b ∧
      (∀ e, e ≠ .revOut → t.block.get e = s.block.get e) ∧
      t.pending = s.pending ∧ t.responses = s.responses ∧
      (∃ u, execAll [.setrevout false, .getcrc, .setrevout true, .getcrc, .setrevout b, .getcrc] s =
          .next u ∧ u.block.reg = s.block.reg ∧
        u.responses = s.responses ++
          [s.block.reg ^^^ s.block.cfg.endXor, rev32 s.block.reg ^^^ s.block.cfg.endXor,
            (if b then rev32 s.block.reg else s.block.reg) ^^^ s.block.cfg.endXor])

/-- R90, `GETREVOUT`: the response is 1 or 0. -/
def Obligations.GetRevOutEffect : Prop :=
  encode .getrevout = (0x0A : BitVec 8) ++ (0 : Word) ∧
  (∀ s : State, ∃ t, exec .getrevout s = .next t ∧ t.block = s.block ∧ t.pending = s.pending ∧
    t.responses = s.responses ++ [if s.block.cfg.revOut then 0x00000001 else 0x00000000])

/-- R80, `CONSTRUCT`: its expansion, its net effect from any state, and the freedom of order: the five
`SET...` commands in any order, the `RESET` anywhere after `SETSTART`; before it, `REG` gets the old
start value. -/
def Obligations.ConstructNetEffect : Prop :=
  ∀ (p st e : Word) (ri ro : Bool),
    constructExpansion p st e ri ro =
      [.setpoly p, .setstart st, .setend e, .setrevin ri, .setrevout ro, .reset] ∧
    (constructExpansion p st e ri ro).map encode =
      [(0x01 : BitVec 8) ++ p, (0x03 : BitVec 8) ++ st, (0x05 : BitVec 8) ++ e,
        (0x07 : BitVec 8) ++ (if ri then (1 : Word) else 0),
        (0x09 : BitVec 8) ++ (if ro then (1 : Word) else 0), 0x0B00000000] ∧
    ∀ (s : State) (l : List Instr), l.Perm (constructExpansion p st e ri ro) →
      (([.setstart st, .reset] : List Instr).Sublist l →
        execAll l s = .next { s with block := { cfg := ⟨p, st, e, ri, ro⟩, reg := st } }) ∧
      (([.reset, .setstart st] : List Instr).Sublist l →
        execAll l s =
          .next { s with block := { cfg := ⟨p, st, e, ri, ro⟩, reg := s.block.cfg.startXor } })

/-! ## Every command -/

/-- R30, the access matrix: the operand column; an element whose `w` is not in the command's row is
unchanged; what the command writes and responds depends on nothing but the elements whose `r` is in its row;
and the response column. The row of the power-on reset is the last clause. -/
def Obligations.AccessMatrixHolds : Prop :=
  (∀ i : Instr, (argField i).toNat < 2 ^ operandBits i) ∧
  (∀ (i : Instr) (s : State), ∃ t, exec i s = .next t ∧
    (∀ e, e ∉ writesOf i → t.block.get e = s.block.get e) ∧
    t.responses = s.responses ++ (responseColumn i s.block).toList) ∧
  (∀ (i : Instr) (s s' : State), (∀ e ∈ readsOf i, s.block.get e = s'.block.get e) →
    ∃ t t' rs, exec i s = .next t ∧ exec i s' = .next t' ∧
      (∀ e ∈ writesOf i, t.block.get e = t'.block.get e) ∧
      t.responses = s.responses ++ rs ∧ t'.responses = s'.responses ++ rs) ∧
  (∀ (d : CrcConfig) (s s' : State) (rest rest' : List HostEvent),
    s.pending = .powerOnReset :: rest → s'.pending = .powerOnReset :: rest' →
    ∃ t t', stepWith d s = .next t ∧ stepWith d s' = .next t' ∧ t.block = t'.block ∧
      t.responses = s.responses)

/-- R60: the `GET...` commands, and only they, produce a response, each the value the rule says. -/
def Obligations.ResponsesOfEveryCommand : Prop :=
  ∀ (i : Instr) (s : State), ∃ t, exec i s = .next t ∧
    (isGet i = false → t.responses = s.responses) ∧
    (i = .getpoly → t.responses = s.responses ++ [s.block.cfg.poly]) ∧
    (i = .getstart → t.responses = s.responses ++ [s.block.cfg.startXor]) ∧
    (i = .getend → t.responses = s.responses ++ [s.block.cfg.endXor]) ∧
    (i = .getrevin → t.responses = s.responses ++ [if s.block.cfg.revIn then 1 else 0]) ∧
    (i = .getrevout → t.responses = s.responses ++ [if s.block.cfg.revOut then 1 else 0]) ∧
    (i = .getcrc → t.responses = s.responses ++
      [finalize s.block.reg s.block.cfg.revOut s.block.cfg.endXor]) ∧
    (isGet i = true → i = .getpoly ∨ i = .getstart ∨ i = .getend ∨ i = .getrevin ∨
      i = .getrevout ∨ i = .getcrc)

/-- R47: reads have no side effects; `RESET` and every `SET...` are idempotent; `ADDB` is not. -/
def Obligations.ReadsPureAndWritesIdempotent : Prop :=
  (∀ (i : Instr) (s : State), isGet i = true →
    ∃ t u r, exec i s = .next t ∧ t.block = s.block ∧ t.responses = s.responses ++ [r] ∧
      exec i t = .next u ∧ u.block = s.block ∧ u.responses = s.responses ++ [r, r]) ∧
  (∀ (i : Instr) (s : State), isGet i = false → (∀ b, i ≠ .addb b) →
    ∃ t, exec i s = .next t ∧ exec i t = .next t) ∧
  (∀ (b : Byte) (s : State), ∃ u, execAll [.addb b, .addb b] s = .next u ∧
    u.block.reg = fold s.block.cfg.poly s.block.cfg.revIn s.block.reg [b, b]) ∧
  (∃ (b : Byte) (s t u : State), exec (.addb b) s = .next t ∧ exec (.addb b) t = .next u ∧
    u.block.reg ≠ t.block.reg)

/-- R152: a `GET...` command deleted from a stream, or inserted, changes no later state and no other
response. -/
def Obligations.ReadsCanBeDeleted : Prop :=
  ∀ (xs ys : List Instr) (g : Instr) (s : State), isGet g = true →
    ∃ m t t' rs r rs', execAll xs s = .next m ∧ m.responses = s.responses ++ rs ∧
      execAll (xs ++ ys) s = .next t ∧ execAll (xs ++ g :: ys) s = .next t' ∧
      t'.block = t.block ∧ t'.pending = t.pending ∧
      t.responses = s.responses ++ rs ++ rs' ∧ t'.responses = s.responses ++ rs ++ r :: rs'

/-- R145: what `SET<reg>` writes, `GET<reg>` returns, whatever other commands stand between; and setting
one configuration register never changes what another's `GET...` returns. -/
def Obligations.ConfigRoundTrip : Prop :=
  (∀ (v : Word) (cs : List Instr) (s : State), (∀ i ∈ cs, ∀ p, i ≠ .setpoly p) →
    ∃ m t, execAll (.setpoly v :: cs) s = .next m ∧ exec .getpoly m = .next t ∧
      t.responses = m.responses ++ [v]) ∧
  (∀ (v : Word) (cs : List Instr) (s : State), (∀ i ∈ cs, ∀ p, i ≠ .setstart p) →
    ∃ m t, execAll (.setstart v :: cs) s = .next m ∧ exec .getstart m = .next t ∧
      t.responses = m.responses ++ [v]) ∧
  (∀ (v : Word) (cs : List Instr) (s : State), (∀ i ∈ cs, ∀ p, i ≠ .setend p) →
    ∃ m t, execAll (.setend v :: cs) s = .next m ∧ exec .getend m = .next t ∧
      t.responses = m.responses ++ [v]) ∧
  (∀ (v : Bool) (cs : List Instr) (s : State), (∀ i ∈ cs, ∀ p, i ≠ .setrevin p) →
    ∃ m t, execAll (.setrevin v :: cs) s = .next m ∧ exec .getrevin m = .next t ∧
      t.responses = m.responses ++ [if v then 1 else 0]) ∧
  (∀ (v : Bool) (cs : List Instr) (s : State), (∀ i ∈ cs, ∀ p, i ≠ .setrevout p) →
    ∃ m t, execAll (.setrevout v :: cs) s = .next m ∧ exec .getrevout m = .next t ∧
      t.responses = m.responses ++ [if v then 1 else 0]) ∧
  (∀ (i g : Instr) (s : State), i ≠ .reset → (∀ b, i ≠ .addb b) → isGet i = false →
    isGet g = true → g ≠ .getcrc → writesOf i ≠ readsOf g →
    ∃ t u v r, exec i s = .next t ∧ exec g t = .next u ∧ exec g s = .next v ∧
      u.responses = t.responses ++ [r] ∧ v.responses = s.responses ++ [r])

/-! ## The accumulator -/

/-- R102, R103, R104: the three functions of the accumulate step, by formula and by bit. -/
def Obligations.ShiftNetworkBits : Prop :=
  (∀ (r : Word) (t : Byte), mix r t = r ^^^ (t.setWidth 32 <<< 24) ∧
    (mix r t).extractLsb' 24 8 = r.extractLsb' 24 8 ^^^ t ∧
    (mix r t).extractLsb' 0 24 = r.extractLsb' 0 24) ∧
  (∀ r p : Word, lfsrBit r p = (if r.getLsbD 31 = true then (r <<< 1) ^^^ p else r <<< 1) ∧
    (lfsrBit r p).getLsbD 0 = (r.getLsbD 31 && p.getLsbD 0) ∧
    (∀ i, 1 ≤ i → i ≤ 31 →
      (lfsrBit r p).getLsbD i = (r.getLsbD (i - 1) ^^ (r.getLsbD 31 && p.getLsbD i)))) ∧
  (∀ (r p : Word) (f : Nat → Word), f 0 = r → (∀ i < 8, f (i + 1) = lfsrBit (f i) p) →
    lfsrByte r p = f 8)

/-- R42: which bit of the byte meets which bit of `REG`, and in which order the eight shifts take them. -/
def Obligations.InputBitPlacement : Prop :=
  ∀ (p r : Word) (ri : Bool) (b : Byte),
    (∀ i < 8, (mix r (inputByte ri b)).getLsbD (24 + i) =
      (r.getLsbD (24 + i) ^^ b.getLsbD (if ri then 7 - i else i))) ∧
    (∀ i < 24, (mix r (inputByte ri b)).getLsbD i = r.getLsbD i) ∧
    addbFn p ri r b = lfsrByte (mix r (inputByte ri b)) p ∧
    (∀ k < 8, (lfsrShifts 0 (mix r (inputByte ri b)) k).getLsbD 31 =
      (mix r (inputByte ri b)).getLsbD (31 - k))

/-- R101, `ADDB`: its word, its effect, what it leaves alone, and the corner cases (b) to (e) and (g). -/
def Obligations.AddbEffect : Prop :=
  (∀ (b : Byte) (s : State),
    encode (.addb b) = (0x0C : BitVec 8) ++ (0 : BitVec 24) ++ b ∧
    (∀ w : CmdWord, w.extractLsb' 32 8 = 0x0C → w.extractLsb' 8 24 ≠ 0 →
      decode w = .error (.unassigned w)) ∧
    ∃ t, exec (.addb b) s = .next t ∧
      t.block.reg = lfsrByte (mix s.block.reg (if s.block.cfg.revIn then rev8 b else b))
        s.block.cfg.poly ∧
      t.block.reg = addbFn s.block.cfg.poly s.block.cfg.revIn s.block.reg b ∧
      (∀ e, e ≠ .reg → t.block.get e = s.block.get e) ∧
      t.pending = s.pending ∧ t.responses = s.responses) ∧
  (∀ (p : Word) (ri : Bool), addbFn p ri 0 0 = 0) ∧
  (∀ p : Word, addbFn p false 0 0x01 = p ∧ addbFn p true 0 0x80 = p) ∧
  (∀ (p r : Word) (ri : Bool) (b : Byte), r.extractLsb' 24 8 = (if ri then rev8 b else b) →
    addbFn p ri r b = r <<< 8) ∧
  (∀ (r : Word) (ri : Bool) (b : Byte),
    addbFn 0 ri r b = mix r (if ri then rev8 b else b) <<< 8 ∧ addbFn 0 ri r b = r <<< 8) ∧
  (∀ (p r : Word) (b : Byte), rev8 b = b → addbFn p true r b = addbFn p false r b)

/-- R100, `RESET`: `REG` loaded, the configuration kept, no response; idle when nothing was added and
`CFG.START` not rewritten; `REG` as it was is gone; followed by `GETCRC` it gives the empty message's
checksum. -/
def Obligations.SoftResetEffect : Prop :=
  encode .reset = (0x0B : BitVec 8) ++ (0 : Word) ∧
  (∀ s : State, ∃ t, exec .reset s = .next t ∧ t.block.reg = s.block.cfg.startXor ∧
    t.block.cfg = s.block.cfg ∧ t.pending = s.pending ∧ t.responses = s.responses) ∧
  (∀ (cs : List Instr) (s : State), (∀ i ∈ cs, (∀ b, i ≠ .addb b) ∧ ∀ v, i ≠ .setstart v) →
    ∃ m, execAll (.reset :: cs) s = .next m ∧ exec .reset m = .next m) ∧
  (∀ s s' : State, s.block.cfg = s'.block.cfg →
    ∃ t t', exec .reset s = .next t ∧ exec .reset s' = .next t' ∧ t.block = t'.block) ∧
  (∀ s : State, ∃ t, execAll [.reset, .getcrc] s = .next t ∧ t.responses = s.responses ++
    [(if s.block.cfg.revOut then rev32 s.block.cfg.startXor else s.block.cfg.startXor) ^^^
      s.block.cfg.endXor])

/-- R108: `ADDB` reads the live configuration: bytes before a `SETPOLY` (or a `SETREVIN`) are folded in
under the old value and stay so, bytes after it under the new one. -/
def Obligations.AddbReadsLiveConfiguration : Prop :=
  (∀ (a b : Byte) (q : Word) (s : State),
    ∃ t, execAll [.reset, .addb a, .setpoly q, .addb b] s = .next t ∧
      t.block.reg = addbFn q s.block.cfg.revIn
        (addbFn s.block.cfg.poly s.block.cfg.revIn s.block.cfg.startXor a) b) ∧
  (∀ (xs ys : List Byte) (q : Word) (rv : Bool) (s : State),
    ∃ t, execAll (addExpansion xs ++ [.setpoly q, .setrevin rv] ++ addExpansion ys) s = .next t ∧
      t.block.reg = fold q rv (fold s.block.cfg.poly s.block.cfg.revIn s.block.reg xs) ys)

/-- R105 and R106, `ADD`: one `ADDB` word per byte, in order; the net effect is the fold; a split `ADD` is
the same words; with no bytes it is no command. -/
def Obligations.AddIsFoldOfBytes : Prop :=
  (∀ bs : List Byte, addExpansion bs = bs.map Instr.addb ∧
    (addExpansion bs).map encode = bs.map fun b => (0x0C : BitVec 8) ++ (0 : BitVec 24) ++ b) ∧
  (∀ (p r : Word) (ri : Bool), fold p ri r [] = r ∧
    ∀ (b : Byte) (rest : List Byte),
      fold p ri r (b :: rest) = fold p ri (addbFn p ri r b) rest) ∧
  (∀ (bs : List Byte) (s : State), ∃ t, execAll (addExpansion bs) s = .next t ∧
    t.block.reg = fold s.block.cfg.poly s.block.cfg.revIn s.block.reg bs ∧
    t.block.cfg = s.block.cfg ∧ t.pending = s.pending ∧ t.responses = s.responses) ∧
  (∀ xs ys : List Byte, addExpansion (xs ++ ys) = addExpansion xs ++ addExpansion ys) ∧
  (∀ s : State, addExpansion [] = [] ∧ execAll (addExpansion []) s = .next s)

/-- R148: splitting the bytes, into any pieces and with reads between them, gives the same `REG` and the
same checksum. -/
def Obligations.IncrementalEquivalence : Prop :=
  (∀ (p r : Word) (ri : Bool) (xs ys : List Byte),
    fold p ri r (xs ++ ys) = fold p ri (fold p ri r xs) ys) ∧
  (∀ xs ys : List Byte, addExpansion xs ++ addExpansion ys = addExpansion (xs ++ ys)) ∧
  (∀ (cs : List Instr) (s : State), (∀ i ∈ cs, undisturbed i = true) →
    ∃ t, execAll cs s = .next t ∧
      t.block.reg = fold s.block.cfg.poly s.block.cfg.revIn s.block.reg (streamBytes cs)) ∧
  (∀ (cs : List Instr) (s : State), (∀ i ∈ cs, isGet i = true ∨ ∃ b, i = .addb b) →
    ∃ m n t u r, execAll cs s = .next m ∧ exec .getcrc m = .next t ∧
      execAll (addExpansion (streamBytes cs)) s = .next n ∧ exec .getcrc n = .next u ∧
      t.responses = m.responses ++ [r] ∧ u.responses = n.responses ++ [r])

/-- R27, the invariant of `REG`, kept by every step of the machine: from every state and every record of
what happened since the last reset that agree, a step leads to a state and a record that agree. -/
def Obligations.RegTracksBytesSinceReset : Prop :=
  ∀ (d : CrcConfig) (h : SinceReset) (s t : State), RegTracks h s → stepWith d s = .next t →
    RegTracks (h.next d s) t

/-- The invariant of R27 holds right after a power-on reset, for every device constant. -/
def Obligations.RegTracksAtPowerOn : Prop :=
  (∀ d : CrcConfig, RegTracks (SinceReset.powerOn d) (State.powerOn d)) ∧
  RegTracks (SinceReset.powerOn Config.defaultCfg) State.reset

/-- R110: linearity of the accumulate step in the register and the byte together, for fixed polynomial and
input reversal; it is not linear in the polynomial. -/
def Obligations.AccumulateIsLinear : Prop :=
  (∀ a b p : Word, lfsrBit (a ^^^ b) p = lfsrBit a p ^^^ lfsrBit b p) ∧
  (∀ (r₁ r₂ : Word) (t₁ t₂ : Byte), mix (r₁ ^^^ r₂) (t₁ ^^^ t₂) = mix r₁ t₁ ^^^ mix r₂ t₂) ∧
  (∀ a b : Byte, rev8 (a ^^^ b) = rev8 a ^^^ rev8 b) ∧
  (∀ (p r₁ r₂ : Word) (ri : Bool) (b₁ b₂ : Byte),
    addbFn p ri (r₁ ^^^ r₂) (b₁ ^^^ b₂) = addbFn p ri r₁ b₁ ^^^ addbFn p ri r₂ b₂) ∧
  (∀ (p r : Word) (ri : Bool) (b : Byte),
    addbFn p ri r b = lfsrByte r p ^^^ addbFn p ri 0 b) ∧
  (∃ (p q r : Word) (ri : Bool) (b : Byte),
    addbFn (p ^^^ q) ri r b ≠ addbFn p ri r b ^^^ addbFn q ri r b)

/-- R112: the form a 256-entry table computes. -/
def Obligations.TableFormOfAccumulate : Prop :=
  ∀ (p r : Word) (ri : Bool) (b : Byte),
    addbFn p ri r b = (r <<< 8) ^^^
      lfsrByte ((r.extractLsb' 24 8 ^^^ (if ri then rev8 b else b)).setWidth 32 <<< 24) p

/-- `P(v)` of R109: the value read as a polynomial over GF(2), bit `i` the coefficient of `x^i`. -/
noncomputable def Sys2Proof.gf2 {n : Nat} (v : BitVec n) : Polynomial (ZMod 2) :=
  ∑ i ∈ Finset.range n, if v.getLsbD i then Polynomial.X ^ i else 0

/-- `G = x^32 + P(CFG.POLY)` of R109: the generator with its implicit leading bit. -/
noncomputable def Sys2Proof.generator (p : Word) : Polynomial (ZMod 2) := Polynomial.X ^ 32 + gf2 p

/-- `M` of R109: the sum of `P(t_j) * x^(8*(n-j))` over the bytes `t_1 ... t_n`, by recursion on the first. -/
noncomputable def Sys2Proof.messagePoly : List Byte → Polynomial (ZMod 2)
  | [] => 0
  | t :: rest => gf2 t * Polynomial.X ^ (8 * rest.length) + messagePoly rest

/-- R109: what `REG` is in polynomial terms, for one shift, for a byte and for a whole message, under every
polynomial. -/
def Obligations.RegIsPolynomialRemainder : Prop :=
  (∀ r p : Word, gf2 (lfsrBit r p) = (Polynomial.X * gf2 r) %ₘ generator p) ∧
  (∀ r p : Word, gf2 (lfsrByte r p) = (Polynomial.X ^ 8 * gf2 r) %ₘ generator p) ∧
  (∀ (p r : Word) (ri : Bool) (b : Byte),
    gf2 (addbFn p ri r b) =
      (Polynomial.X ^ 8 * gf2 r + Polynomial.X ^ 32 * gf2 (if ri then rev8 b else b)) %ₘ
        generator p) ∧
  (∀ (p s : Word) (ri : Bool) (bs : List Byte),
    gf2 (fold p ri s bs) =
      (Polynomial.X ^ (8 * bs.length) * gf2 s +
        Polynomial.X ^ 32 * messagePoly (bs.map fun b => if ri then rev8 b else b)) %ₘ
          generator p)

/-! ## The bit-reversal unit -/

/-- R130, R131, R132: each bit changes places with its mirror image, and the number of 1 bits is
unchanged. -/
def Obligations.BitReversalPermutesBits : Prop :=
  (∀ (n : Nat) (v : BitVec n) (i : Nat), i ≤ n - 1 → 0 < n →
    (rev v).getLsbD i = v.getLsbD (n - 1 - i)) ∧
  (∀ (n : Nat) (v : BitVec n),
    ((Finset.range n).filter fun i => (rev v).getLsbD i = true).card =
      ((Finset.range n).filter fun i => v.getLsbD i = true).card) ∧
  (∀ (v : Byte) (i : Nat), i ≤ 7 → (rev8 v).getLsbD i = v.getLsbD (7 - i)) ∧
  (∀ (v : Word) (i : Nat), i ≤ 31 → (rev32 v).getLsbD i = v.getLsbD (31 - i))

/-- R133: the reversal is its own inverse, and a bijection. -/
def Obligations.BitReversalInvolution : Prop :=
  (∀ (n : Nat) (v : BitVec n), rev (rev v) = v) ∧
  (∀ v : Byte, rev8 (rev8 v) = v) ∧ (∀ v : Word, rev32 (rev32 v) = v) ∧
  Function.Bijective rev8 ∧ Function.Bijective rev32

/-- R134: linearity, and `rev32` by the bytes. -/
def Obligations.BitReversalLinearAndByBytes : Prop :=
  (∀ (n : Nat) (a b : BitVec n), rev (a ^^^ b) = rev a ^^^ rev b) ∧
  (∀ n : Nat, rev (0#n) = 0#n ∧ rev (BitVec.allOnes n) = BitVec.allOnes n) ∧
  (∀ b3 b2 b1 b0 : Byte,
    rev32 (b3 ++ b2 ++ b1 ++ b0) = rev8 b0 ++ rev8 b1 ++ rev8 b2 ++ rev8 b3) ∧
  (∀ t : Byte, rev32 (t.setWidth 32 <<< 24) = (rev8 t).setWidth 32)

/-! ## The checksum -/

/-- R121, the read-out transform: reverse first, XOR second; a bijection with the inverse given. -/
def Obligations.FinalizeInvertible : Prop :=
  (∀ (r e : Word) (ro : Bool), finalize r ro e = (if ro then rev32 r else r) ^^^ e) ∧
  (∀ (e : Word) (ro : Bool), Function.Bijective fun r => finalize r ro e) ∧
  (∀ (r e : Word) (ro : Bool),
    r = if ro then rev32 (finalize r ro e ^^^ e) else finalize r ro e ^^^ e)

/-- R120, `GETCRC`: its word, its response, nothing changed, and the corner cases (a) to (d). -/
def Obligations.GetCrcEffect : Prop :=
  encode .getcrc = (0x0D : BitVec 8) ++ (0 : Word) ∧
  (∀ s : State, ∃ t, exec .getcrc s = .next t ∧ t.block = s.block ∧ t.pending = s.pending ∧
    t.responses = s.responses ++ [finalize s.block.reg s.block.cfg.revOut s.block.cfg.endXor]) ∧
  (∀ s : State, ∃ t r, execAll [.reset, .getcrc] s = .next t ∧ t.responses = s.responses ++ [r] ∧
    r = finalize s.block.cfg.startXor s.block.cfg.revOut s.block.cfg.endXor ∧
    (s.block.cfg.startXor = 0xFFFFFFFF → s.block.cfg.endXor = 0xFFFFFFFF → r = 0)) ∧
  (∀ s : State, s.block.cfg.revOut = false → s.block.cfg.endXor = 0 →
    ∃ t, exec .getcrc s = .next t ∧ t.responses = s.responses ++ [s.block.reg]) ∧
  (∀ d : CrcConfig, ∃ t, exec .getcrc (State.powerOn d) = .next t ∧
    t.responses = [finalize d.startXor d.revOut d.endXor]) ∧
  (∀ (r e : Word), rev32 r = r → finalize r true e = finalize r false e)

/-- R125: `GETCRC` reads the live configuration. -/
def Obligations.GetCrcReadsLiveConfiguration : Prop :=
  ∀ (e : Word) (ro : Bool) (bs : List Byte) (s : State),
    ∃ t, execAll (.reset :: addExpansion bs ++ [.setend e, .setrevout ro, .getcrc]) s = .next t ∧
      t.block.reg = fold s.block.cfg.poly s.block.cfg.revIn s.block.cfg.startXor bs ∧
      t.responses = s.responses ++ [finalize t.block.reg ro e]

/-- R122: two `GETCRC` with none of `ADDB`, `RESET`, `SETEND`, `SETREVOUT` between them return the same
value, as they do wherever `REG`, `CFG.REVOUT` and `CFG.END` are the same; across a `SETEND` they need
not. -/
def Obligations.GetCrcIdempotent : Prop :=
  (∀ (cs : List Instr) (s : State),
    (∀ i ∈ cs, (∀ b, i ≠ .addb b) ∧ i ≠ .reset ∧ (∀ v, i ≠ .setend v) ∧ ∀ b, i ≠ .setrevout b) →
    ∃ t r rs, execAll (.getcrc :: cs ++ [.getcrc]) s = .next t ∧
      t.responses = s.responses ++ [r] ++ rs ++ [r]) ∧
  (∀ s s' : State, s.block.reg = s'.block.reg → s.block.cfg.revOut = s'.block.cfg.revOut →
    s.block.cfg.endXor = s'.block.cfg.endXor →
    ∃ t t' r, exec .getcrc s = .next t ∧ exec .getcrc s' = .next t' ∧
      t.responses = s.responses ++ [r] ∧ t'.responses = s'.responses ++ [r]) ∧
  (∃ (v : Word) (s t : State) (x y : Word), execAll [.getcrc, .setend v, .getcrc] s = .next t ∧
    t.responses = s.responses ++ [x, y] ∧ x ≠ y)

/-- R123: `GETCRC` in mid-message returns the checksum of the bytes so far and disturbs nothing. -/
def Obligations.MidStreamReadIsChecksumSoFar : Prop :=
  ∀ (xs ys : List Byte) (s : State),
    ∃ t, execAll (.reset :: addExpansion xs ++ .getcrc :: addExpansion ys ++ [.getcrc]) s = .next t ∧
      t.responses = s.responses ++ [crc s.block.cfg xs, crc s.block.cfg (xs ++ ys)]

/-- R153: `REG` does not depend on the read-out configuration, whatever commands execute; and a `GETCRC`
response depends on the bytes only through `REG`. -/
def Obligations.RegIgnoresReadOutConfiguration : Prop :=
  (∀ (cs : List Instr) (s s' : State), s.block.cfg.poly = s'.block.cfg.poly →
    s.block.cfg.startXor = s'.block.cfg.startXor → s.block.cfg.revIn = s'.block.cfg.revIn →
    s.block.reg = s'.block.reg →
    ∃ t t', execAll cs s = .next t ∧
      execAll (cs.filter fun i => match i with
        | .setend _ => false
        | .setrevout _ => false
        | _ => true) s' = .next t' ∧ t.block.reg = t'.block.reg) ∧
  (∀ s s' : State, s.block.reg = s'.block.reg → s.block.cfg.revOut = s'.block.cfg.revOut →
    s.block.cfg.endXor = s'.block.cfg.endXor →
    ∃ t t' r, exec .getcrc s = .next t ∧ exec .getcrc s' = .next t' ∧
      t.responses = s.responses ++ [r] ∧ t'.responses = s'.responses ++ [r])

/-- R151: the stream `CONSTRUCT ; ADD bs ; GETCRC`, presented at the port in any state of any device,
produces exactly one response, the checksum of the bytes under the configuration. -/
def Obligations.ChecksumFromAnyState : Prop :=
  ∀ (d : CrcConfig) (p st e : Word) (ri ro : Bool) (bs : List Byte) (s : State)
    (rest : List HostEvent),
    s.pending = presented (constructExpansion p st e ri ro ++ addExpansion bs ++ [.getcrc]) ++ rest →
    ∃ t, stepsWith d (bs.length + 7) s = .next t ∧
      t.responses = s.responses ++ [crc ⟨p, st, e, ri, ro⟩ bs] ∧
      crc ⟨p, st, e, ri, ro⟩ bs = finalize (fold p ri st bs) ro e ∧
      t.block = { cfg := ⟨p, st, e, ri, ro⟩, reg := fold p ri st bs } ∧ t.pending = rest

/-- R149: after `RESET`, the checksum of the bytes does not depend on the `REG` left before. -/
def Obligations.ResetRestartsMessage : Prop :=
  (∀ (bs : List Byte) (s : State),
    ∃ t, execAll (.reset :: addExpansion bs ++ [.getcrc]) s = .next t ∧
      t.responses = s.responses ++ [crc s.block.cfg bs]) ∧
  (∀ (bs : List Byte) (cs : List Instr) (s : State),
    ∃ m t, execAll cs s = .next m ∧ execAll (.reset :: addExpansion bs ++ [.getcrc]) m = .next t ∧
      t.responses = m.responses ++ [crc m.block.cfg bs])

/-- R150: construction by the five parameters and by power-on reset, the five setters and `RESET` give the
same response for every device constant; without the `RESET` the second gives the fold from the
device's start value, and the two can then differ. (R150's "equals the first only when
`DEFAULT_CFG.START = s`" is not stated: under a polynomial such as 0 they also agree otherwise;
notes/assumptions/6.md.) -/
def Obligations.ConstructionEquivalence : Prop :=
  (∀ (d : CrcConfig) (p st e : Word) (ri ro : Bool) (bs : List Byte) (s : State)
    (rest : List HostEvent),
    (s.pending = .powerOnReset :: presented ([.setpoly p, .setstart st, .setend e, .setrevin ri,
        .setrevout ro, .reset] ++ addExpansion bs ++ [.getcrc]) ++ rest →
      ∃ t, stepsWith d (bs.length + 8) s = .next t ∧
        t.responses = s.responses ++ [crc ⟨p, st, e, ri, ro⟩ bs]) ∧
    (s.pending = .powerOnReset :: presented ([.setpoly p, .setstart st, .setend e, .setrevin ri,
        .setrevout ro] ++ addExpansion bs ++ [.getcrc]) ++ rest →
      ∃ t, stepsWith d (bs.length + 7) s = .next t ∧
        t.responses = s.responses ++ [finalize (fold p ri d.startXor bs) ro e])) ∧
  (∃ (d : CrcConfig) (p st e : Word) (ri ro : Bool) (bs : List Byte),
    finalize (fold p ri d.startXor bs) ro e ≠ crc ⟨p, st, e, ri, ro⟩ bs)

/-- R187, the boot sequence on any device: the configuration commands in any order, a `RESET` somewhere
after `SETSTART`, then the bytes in order, with `SETEND` and `SETREVOUT` anywhere before the `GETCRC`. The
response is the checksum of the bytes, and no register holds a value of the device's own. -/
def Obligations.BootSequence : Prop :=
  ∀ (d : CrcConfig) (p st e : Word) (ri ro : Bool) (pre cs : List Instr),
    (∀ i ∈ pre, i ∈ constructExpansion p st e ri ro) →
    .setpoly p ∈ pre → .setrevin ri ∈ pre → ([.setstart st, .reset] : List Instr).Sublist pre →
    (∀ i ∈ cs, (∃ b, i = .addb b) ∨ i = .setend e ∨ i = .setrevout ro) →
    .setend e ∈ pre ++ cs → .setrevout ro ∈ pre ++ cs →
    ∃ t, execAll (pre ++ cs ++ [.getcrc]) (State.powerOn d) = .next t ∧
      t.responses = [crc ⟨p, st, e, ri, ro⟩ (streamBytes cs)] ∧
      t.block = { cfg := ⟨p, st, e, ri, ro⟩, reg := fold p ri st (streamBytes cs) }

/-- R146, the six known vectors over the nine ASCII bytes of "123456789". -/
def Obligations.KnownVectors : Prop :=
  let bs : List Byte := [0x31, 0x32, 0x33, 0x34, 0x35, 0x36, 0x37, 0x38, 0x39]
  crc ⟨0x04C11DB7, 0xFFFFFFFF, 0xFFFFFFFF, true, true⟩ bs = 0xCBF43926 ∧
  crc ⟨0x04C11DB7, 0xFFFFFFFF, 0xFFFFFFFF, false, false⟩ bs = 0xFC891918 ∧
  crc ⟨0x1EDC6F41, 0xFFFFFFFF, 0xFFFFFFFF, true, true⟩ bs = 0xE3069283 ∧
  crc ⟨0xA833982B, 0xFFFFFFFF, 0xFFFFFFFF, true, true⟩ bs = 0x87315576 ∧
  crc ⟨0x04C11DB7, 0xFFFFFFFF, 0x00000000, false, false⟩ bs = 0x0376E6E7 ∧
  crc ⟨0x04C11DB7, 0x00000000, 0xFFFFFFFF, false, false⟩ bs = 0x765E7680

/-! ## Runs -/

/-- A safe run stays safe, and never stops (R165, R192): from every state whose pending words are all
assigned a step answers a next state, and its pending words are all assigned. -/
def Obligations.WellFedInvariant : Prop :=
  ∀ (d : CrcConfig) (s : State), s.wellFed = true →
    (∃ t, stepWith d s = .next t) ∧ ∀ t, stepWith d s = .next t → t.wellFed = true

/-- The reset state is well fed, for every device constant. -/
def Obligations.WellFedAtPowerOn : Prop :=
  (∀ d : CrcConfig, (State.powerOn d).wellFed = true) ∧ State.reset.wellFed = true

/-- R192: a finite stream of assigned words and power-on resets always runs to its end, in one step each,
and the responses it produces are appended to those before. That further steps change nothing is the idle
step, the model's reading (notes/assumptions/4.md). -/
def Obligations.FiniteStreamRunsToItsEnd : Prop :=
  ∀ (d : CrcConfig) (s : State), s.wellFed = true →
    ∃ t rs, stepsWith d s.pending.length s = .next t ∧ t.pending = [] ∧
      t.responses = s.responses ++ rs ∧ rs.length ≤ s.pending.length ∧
      ∀ k, stepsWith d (s.pending.length + k) s = .next t

/-! ## The host's side -/

/-- R107: the host's `add(data, length)` sends the first `length` bytes, or is refused. -/
def Obligations.HostAddSendsOrRefuses : Prop :=
  ∀ (data : List Byte) (length : Int),
    (0 ≤ length → length ≤ data.length →
      ∃ is, hostAdd data length = .ok is ∧ (is.length : Int) = length ∧
        ∀ k < is.length, is[k]? = data[k]?.map Instr.addb) ∧
    (length < 0 ∨ (data.length : Int) < length →
      hostAdd data length = .error (.lengthOutOfRange length))

/-- R55: every row of the source's interface table, run in its hardware form, has the effect and the output
the source gives it; only an `add` with a length out of range has none. -/
def Obligations.InterfaceTableRows : Prop :=
  (∀ (d : CrcConfig) (c : ApiCall) (evs rest : List HostEvent) (s : State),
    c.events = .ok evs → s.pending = evs ++ rest →
    ∃ t, stepsWith d evs.length s = .next t ∧ t.block = (c.effect d s.block).1 ∧
      t.responses = s.responses ++ (c.effect d s.block).2.toList ∧ t.pending = rest) ∧
  (∀ c : ApiCall, (∃ evs, c.events = .ok evs) ∨
    ∃ data length, c = .add data length ∧ (length < 0 ∨ (data.length : Int) < length))

/-- R65, the two pseudo-instructions, and R64's operand ranges, on the operands of a line. -/
def Obligations.AssemblerOperands : Prop :=
  (∀ n : Nat, expandLine .setpoly [.num n] =
    if n ≤ 0xFFFFFFFF then some [.setpoly (BitVec.ofNat 32 n)] else none) ∧
  (∀ n : Nat, expandLine .setstart [.num n] =
    if n ≤ 0xFFFFFFFF then some [.setstart (BitVec.ofNat 32 n)] else none) ∧
  (∀ n : Nat, expandLine .setend [.num n] =
    if n ≤ 0xFFFFFFFF then some [.setend (BitVec.ofNat 32 n)] else none) ∧
  (∀ n : Nat, expandLine .setrevin [.num n] =
    if n = 0 then some [.setrevin false] else if n = 1 then some [.setrevin true] else none) ∧
  (∀ n : Nat, expandLine .setrevout [.num n] =
    if n = 0 then some [.setrevout false] else if n = 1 then some [.setrevout true] else none) ∧
  (∀ n : Nat, expandLine .addb [.num n] =
    if n ≤ 0xFF then some [.addb (BitVec.ofNat 8 n)] else none) ∧
  (∀ bs : List Byte, expandLine .add [.text bs] = some (bs.map Instr.addb) ∧
    expandLine .add (bs.map fun b => .num b.toNat) = some (bs.map Instr.addb)) ∧
  (∀ (p s e : Word) (ri ro : Bool),
    expandLine .construct [.num p.toNat, .num s.toNat, .num e.toNat, .num ri.toNat, .num ro.toNat] =
      some [.setpoly p, .setstart s, .setend e, .setrevin ri, .setrevout ro, .reset]) ∧
  (∀ (line : String) (err : AsmError), assembleLine line = .error err → emitLine line = [])
end

