-- ==== Sys2Proof/Laws/BitReversal.lean ====
section
/-! SUPPORT. The bit-reversal unit in terms of single bits (spec/43_bit_reversal_unit.md R130) and of the
library's `BitVec.reverse`. -/

namespace Sys2Proof.Machine

theorem revUpTo_getLsbD {n : Nat} (v : BitVec n) (k i : Nat) :
    (revUpTo v k).getLsbD i = (decide (i < k) && decide (i < n) && v.getLsbD (n - 1 - i)) := by
  induction k with
  | zero => simp [revUpTo]
  | succ k ih =>
    simp only [revUpTo, BitVec.getLsbD_or, ih, BitVec.getLsbD_shiftLeft, BitVec.getLsbD_setWidth,
      BitVec.getLsbD_ofBool]
    by_cases hin : i < n
    · rcases Nat.lt_trichotomy i k with h | h | h
      · simp [hin, h, Nat.lt_succ_of_lt h]
      · subst h
        have : n - 1 - i < n := by omega
        simp [hin, show 0 < n by omega]
      · have h0 : ¬ i - k = 0 := by omega
        simp [hin, h0, show ¬ i < k by omega, show ¬ i < k + 1 by omega]
    · simp [hin]

/-- R130: bit `i` of `rev_N(v)` is `v[N-1-i]`. -/
theorem rev_getLsbD {n : Nat} (v : BitVec n) (i : Nat) :
    (rev v).getLsbD i = (decide (i < n) && v.getLsbD (n - 1 - i)) := by
  rw [rev, revUpTo_getLsbD]
  by_cases h : i < n <;> simp [h]

/-- `rev` is the library's reversal, so that the library's lemmas apply to it. -/
theorem rev_eq_reverse {n : Nat} (v : BitVec n) : rev v = v.reverse := by
  apply BitVec.eq_of_getLsbD_eq
  intro i hi
  rw [rev_getLsbD, BitVec.getLsbD_reverse, BitVec.getMsbD_eq_getLsbD]

end Sys2Proof.Machine
end

