-- ==== Sys2Proof/Laws/Decode.lean ====
section
/-! SUPPORT. The fields of a command word, and what the operand classes admit. -/

namespace Sys2Proof

@[simp] theorem opField_commandWord (op : BitVec 8) (arg : Word) :
    opField (commandWord op arg) = op := by
  simp only [opField, commandWord]
  exact BitVec.extractLsb'_append_eq_left

@[simp] theorem operandField_commandWord (op : BitVec 8) (arg : Word) :
    operandField (commandWord op arg) = arg := by
  simp only [operandField, commandWord]
  exact BitVec.extractLsb'_append_eq_right

/-- A command word is its two fields. -/
theorem commandWord_fields (w : CmdWord) : commandWord (opField w) (operandField w) = w := by
  apply BitVec.eq_of_getLsbD_eq
  intro i hi
  simp only [commandWord, opField, operandField, BitVec.getLsbD_append, BitVec.getLsbD_extractLsb']
  by_cases h : i < 32
  · simp [h]
  · simp only [h, if_false, decide_false, Bool.false_and]
    have h1 : i - 32 < 8 := by omega
    have h2 : 32 + (i - 32) = i := by omega
    simp [h1, h2]

/-- The fields of an encoded command. -/
@[simp] theorem opField_encode (i : Instr) : opField (encode i) = opcode i := by simp [encode]

@[simp] theorem operandField_encode (i : Instr) : operandField (encode i) = Machine.argField i := by
  simp [encode]

/-- Everything `admitted` can do. -/
theorem admitted_eq_ok {c : Machine.OperandClass} {w : CmdWord} {i j : Instr} :
    admitted c w i = .ok j ↔ c.admits (operandField w) = true ∧ i = j := by
  unfold admitted
  split <;> simp_all

namespace Machine

@[simp] theorem boolOperand_zextBool (b : Bool) : boolOperand (zextBool b) = b := by
  cases b <;> decide

@[simp] theorem byteOperand_zextByte (b : Byte) : byteOperand (zextByte b) = b := by
  apply BitVec.eq_of_getLsbD_eq
  intro i hi
  simp [byteOperand, zextByte, hi]
  omega

@[simp] theorem admits_zextBool (b : Bool) : OperandClass.bool.admits (zextBool b) = true := by
  cases b <;> decide

@[simp] theorem admits_zextByte (b : Byte) : OperandClass.byte.admits (zextByte b) = true := by
  simp only [OperandClass.admits, beq_iff_eq]
  apply BitVec.eq_of_getLsbD_eq
  intro i hi
  simp [zextByte]

end Machine

end Sys2Proof
end

