-- ==== Sys2Proof/Laws/State.lean ====
section
/-! SUPPORT. One lemma per field per update of the state, each true by unfolding, so that no later proof
unfolds a record update; and what `complete` answers, said once. -/

namespace Sys2Proof.Machine

@[simp] theorem Block.setPoly_poly (b : Block) (v : Word) : (b.setPoly v).cfg.poly = v := rfl
@[simp] theorem Block.setPoly_start (b : Block) (v : Word) : (b.setPoly v).cfg.startXor = b.cfg.startXor := rfl
@[simp] theorem Block.setPoly_end (b : Block) (v : Word) : (b.setPoly v).cfg.endXor = b.cfg.endXor := rfl
@[simp] theorem Block.setPoly_revIn (b : Block) (v : Word) : (b.setPoly v).cfg.revIn = b.cfg.revIn := rfl
@[simp] theorem Block.setPoly_revOut (b : Block) (v : Word) : (b.setPoly v).cfg.revOut = b.cfg.revOut := rfl
@[simp] theorem Block.setPoly_reg (b : Block) (v : Word) : (b.setPoly v).reg = b.reg := rfl

@[simp] theorem Block.setStart_poly (b : Block) (v : Word) : (b.setStart v).cfg.poly = b.cfg.poly := rfl
@[simp] theorem Block.setStart_start (b : Block) (v : Word) : (b.setStart v).cfg.startXor = v := rfl
@[simp] theorem Block.setStart_end (b : Block) (v : Word) : (b.setStart v).cfg.endXor = b.cfg.endXor := rfl
@[simp] theorem Block.setStart_revIn (b : Block) (v : Word) : (b.setStart v).cfg.revIn = b.cfg.revIn := rfl
@[simp] theorem Block.setStart_revOut (b : Block) (v : Word) : (b.setStart v).cfg.revOut = b.cfg.revOut := rfl
@[simp] theorem Block.setStart_reg (b : Block) (v : Word) : (b.setStart v).reg = b.reg := rfl

@[simp] theorem Block.setEnd_poly (b : Block) (v : Word) : (b.setEnd v).cfg.poly = b.cfg.poly := rfl
@[simp] theorem Block.setEnd_start (b : Block) (v : Word) : (b.setEnd v).cfg.startXor = b.cfg.startXor := rfl
@[simp] theorem Block.setEnd_end (b : Block) (v : Word) : (b.setEnd v).cfg.endXor = v := rfl
@[simp] theorem Block.setEnd_revIn (b : Block) (v : Word) : (b.setEnd v).cfg.revIn = b.cfg.revIn := rfl
@[simp] theorem Block.setEnd_revOut (b : Block) (v : Word) : (b.setEnd v).cfg.revOut = b.cfg.revOut := rfl
@[simp] theorem Block.setEnd_reg (b : Block) (v : Word) : (b.setEnd v).reg = b.reg := rfl

@[simp] theorem Block.setRevIn_poly (b : Block) (v : Bool) : (b.setRevIn v).cfg.poly = b.cfg.poly := rfl
@[simp] theorem Block.setRevIn_start (b : Block) (v : Bool) : (b.setRevIn v).cfg.startXor = b.cfg.startXor := rfl
@[simp] theorem Block.setRevIn_end (b : Block) (v : Bool) : (b.setRevIn v).cfg.endXor = b.cfg.endXor := rfl
@[simp] theorem Block.setRevIn_revIn (b : Block) (v : Bool) : (b.setRevIn v).cfg.revIn = v := rfl
@[simp] theorem Block.setRevIn_revOut (b : Block) (v : Bool) : (b.setRevIn v).cfg.revOut = b.cfg.revOut := rfl
@[simp] theorem Block.setRevIn_reg (b : Block) (v : Bool) : (b.setRevIn v).reg = b.reg := rfl

@[simp] theorem Block.setRevOut_poly (b : Block) (v : Bool) : (b.setRevOut v).cfg.poly = b.cfg.poly := rfl
@[simp] theorem Block.setRevOut_start (b : Block) (v : Bool) : (b.setRevOut v).cfg.startXor = b.cfg.startXor := rfl
@[simp] theorem Block.setRevOut_end (b : Block) (v : Bool) : (b.setRevOut v).cfg.endXor = b.cfg.endXor := rfl
@[simp] theorem Block.setRevOut_revIn (b : Block) (v : Bool) : (b.setRevOut v).cfg.revIn = b.cfg.revIn := rfl
@[simp] theorem Block.setRevOut_revOut (b : Block) (v : Bool) : (b.setRevOut v).cfg.revOut = v := rfl
@[simp] theorem Block.setRevOut_reg (b : Block) (v : Bool) : (b.setRevOut v).reg = b.reg := rfl

@[simp] theorem Block.setReg_poly (b : Block) (v : Word) : (b.setReg v).cfg.poly = b.cfg.poly := rfl
@[simp] theorem Block.setReg_start (b : Block) (v : Word) : (b.setReg v).cfg.startXor = b.cfg.startXor := rfl
@[simp] theorem Block.setReg_end (b : Block) (v : Word) : (b.setReg v).cfg.endXor = b.cfg.endXor := rfl
@[simp] theorem Block.setReg_revIn (b : Block) (v : Word) : (b.setReg v).cfg.revIn = b.cfg.revIn := rfl
@[simp] theorem Block.setReg_revOut (b : Block) (v : Word) : (b.setReg v).cfg.revOut = b.cfg.revOut := rfl
@[simp] theorem Block.setReg_reg (b : Block) (v : Word) : (b.setReg v).reg = v := rfl

@[simp] theorem Block.powerOn_poly (d : CrcConfig) : (Block.powerOn d).cfg.poly = d.poly := rfl
@[simp] theorem Block.powerOn_start (d : CrcConfig) : (Block.powerOn d).cfg.startXor = d.startXor := rfl
@[simp] theorem Block.powerOn_end (d : CrcConfig) : (Block.powerOn d).cfg.endXor = d.endXor := rfl
@[simp] theorem Block.powerOn_revIn (d : CrcConfig) : (Block.powerOn d).cfg.revIn = d.revIn := rfl
@[simp] theorem Block.powerOn_revOut (d : CrcConfig) : (Block.powerOn d).cfg.revOut = d.revOut := rfl
@[simp] theorem Block.powerOn_reg (d : CrcConfig) : (Block.powerOn d).reg = d.startXor := rfl
@[simp] theorem Block.powerOn_cfg (d : CrcConfig) : (Block.powerOn d).cfg = d := rfl

@[simp] theorem State.withPending_block (s : State) (evs : List HostEvent) :
    (s.withPending evs).block = s.block := rfl
@[simp] theorem State.withPending_pending (s : State) (evs : List HostEvent) :
    (s.withPending evs).pending = evs := rfl
@[simp] theorem State.withPending_responses (s : State) (evs : List HostEvent) :
    (s.withPending evs).responses = s.responses := rfl
@[simp] theorem State.withPending_self (s : State) : s.withPending s.pending = s := rfl
@[simp] theorem State.withPending_withPending (s : State) (evs evs' : List HostEvent) :
    (s.withPending evs).withPending evs' = s.withPending evs' := rfl

@[simp] theorem State.powerOn_block (d : CrcConfig) : (State.powerOn d).block = Block.powerOn d := rfl
@[simp] theorem State.powerOn_pending (d : CrcConfig) : (State.powerOn d).pending = [] := rfl
@[simp] theorem State.powerOn_responses (d : CrcConfig) : (State.powerOn d).responses = [] := rfl

/-- The interface's reset state is the power-on state of the instance Config.lean names. -/
theorem State.reset_eq_powerOn : State.reset = State.powerOn Config.defaultCfg := rfl

/-- Everything `complete` can do: it answers the one next state with the block given, the response
appended, and nothing taken from the port. -/
theorem complete_next {b : Block} {resp : Option Word} {s t : State} :
    complete b resp s = .next t ↔
      t.block = b ∧ t.pending = s.pending ∧ t.responses = s.responses ++ resp.toList := by
  obtain ⟨tb, tp, tr⟩ := t
  constructor
  · intro h
    cases h
    exact ⟨rfl, rfl, rfl⟩
  · rintro ⟨rfl, rfl, rfl⟩
    rfl

/-- Everything `atPort` can do: the block's own step, and its response appended to the host's list. -/
theorem atPort_next {f : BlockStep} {s t : State} :
    atPort f s = .next t ↔
      t.block = (f s.block).1 ∧ t.pending = s.pending ∧
        t.responses = s.responses ++ (f s.block).2.toList :=
  complete_next

/-- Two states with the same block, the same port and the same responses are the same state. -/
theorem State.ext_fields {s t : State} (hb : s.block = t.block) (hp : s.pending = t.pending)
    (hr : s.responses = t.responses) : s = t := by
  cases s; cases t; cases hb; cases hp; cases hr; rfl

end Sys2Proof.Machine
end

