-- ==== Sys2Proof/Laws/Exec.lean ====
section
/-! SUPPORT. What a command does to the block and what it responds, in the form of spec/00_scope.md R9
(`exec : State x Command -> State x Option Response`), and the laws of streams and of the port that
later proofs cite instead of unfolding `exec`, `stepWith` or `execAll`. -/

namespace Sys2Proof.Machine

/-- What each command does, as an equation, so that no later proof unfolds it. -/
@[simp] theorem setpolyEffect_eq (p : Word) (b : Block) :
    setpolyEffect p b = (b.setPoly p, none) := rfl
@[simp] theorem getpolyEffect_eq (b : Block) :
    getpolyEffect b = (b, some b.cfg.poly) := rfl
@[simp] theorem setstartEffect_eq (v : Word) (b : Block) :
    setstartEffect v b = (b.setStart v, none) := rfl
@[simp] theorem getstartEffect_eq (b : Block) :
    getstartEffect b = (b, some b.cfg.startXor) := rfl
@[simp] theorem setendEffect_eq (v : Word) (b : Block) :
    setendEffect v b = (b.setEnd v, none) := rfl
@[simp] theorem getendEffect_eq (b : Block) :
    getendEffect b = (b, some b.cfg.endXor) := rfl
@[simp] theorem setrevinEffect_eq (v : Bool) (b : Block) :
    setrevinEffect v b = (b.setRevIn v, none) := rfl
@[simp] theorem getrevinEffect_eq (b : Block) :
    getrevinEffect b = (b, some (zextBool b.cfg.revIn)) := rfl
@[simp] theorem setrevoutEffect_eq (v : Bool) (b : Block) :
    setrevoutEffect v b = (b.setRevOut v, none) := rfl
@[simp] theorem getrevoutEffect_eq (b : Block) :
    getrevoutEffect b = (b, some (zextBool b.cfg.revOut)) := rfl
@[simp] theorem resetEffect_eq (b : Block) :
    resetEffect b = (b.setReg b.cfg.startXor, none) := rfl
@[simp] theorem addbEffect_eq (v : Byte) (b : Block) :
    addbEffect v b = (b.setReg (addbFn b.cfg.poly b.cfg.revIn b.reg v), none) := rfl
@[simp] theorem getcrcEffect_eq (b : Block) :
    getcrcEffect b = (b, some (finalize b.reg b.cfg.revOut b.cfg.endXor)) := rfl

/-- Everything `exec` can do: the block's own transition of R9, at the port. -/
theorem exec_eq_atPort (i : Instr) (s : State) : exec i s = atPort (transition i) s := by
  cases i <;> rfl

/-- `exec` by fields: it answers a next state exactly when that state has the command's block and
response and the port untouched. -/
theorem exec_eq_next {i : Instr} {s t : State} :
    exec i s = .next t ↔
      t.block = (transition i s.block).1 ∧ t.pending = s.pending ∧
        t.responses = s.responses ++ (transition i s.block).2.toList := by
  rw [exec_eq_atPort, atPort_next]

@[simp] theorem andThen_next (s : State) (f : State → Host.Outcome State Fault Refusal) :
    andThen (.next s) f = f s := rfl

@[simp] theorem andThen_refused (r : Refusal) (f : State → Host.Outcome State Fault Refusal) :
    andThen (.refused r) f = .refused r := rfl

/-- A run of two parts answers a next state through one in the middle. -/
theorem andThen_eq_next {o : Host.Outcome State Fault Refusal}
    {f : State → Host.Outcome State Fault Refusal} {t : State} :
    andThen o f = .next t ↔ ∃ m, o = .next m ∧ f m = .next t := by
  cases o <;> simp [andThen]

@[simp] theorem execAll_nil (s : State) : execAll [] s = .next s := rfl

theorem execAll_cons (i : Instr) (is : List Instr) (s : State) :
    execAll (i :: is) s = andThen (exec i s) (execAll is) := rfl

theorem execAll_append (is js : List Instr) (s : State) :
    execAll (is ++ js) s = andThen (execAll is s) (execAll js) := by
  induction is generalizing s with
  | nil => rfl
  | cons i is ih =>
    simp only [List.cons_append, execAll_cons]
    cases exec i s with
    | next m => exact ih m
    | fault r => rfl
    | refused r => rfl

theorem stepsWith_succ (d : CrcConfig) (k : Nat) (s : State) :
    stepsWith d (k + 1) s = andThen (stepWith d s) (stepsWith d k) := rfl

theorem stepsWith_add (d : CrcConfig) (j k : Nat) (s : State) :
    stepsWith d (j + k) s = andThen (stepsWith d j s) (stepsWith d k) := by
  induction j generalizing s with
  | zero => simp [stepsWith]
  | succ j ih =>
    rw [show j + 1 + k = (j + k) + 1 by omega, stepsWith_succ, stepsWith_succ]
    cases stepWith d s with
    | next m => exact ih m
    | fault r => rfl
    | refused r => rfl

/-- What the port hands over, by the head of what the host presents. -/
theorem nextPresented_nil {s : State} (h : s.pending = []) : nextPresented s = .nothing := by
  simp [nextPresented, h]

theorem nextPresented_powerOnReset {s : State} {rest : List HostEvent}
    (h : s.pending = .powerOnReset :: rest) :
    nextPresented s = .powerOnReset (s.withPending rest) := by
  simp [nextPresented, h]

theorem nextPresented_command {s : State} {w : CmdWord} {rest : List HostEvent}
    (h : s.pending = .command w :: rest) :
    nextPresented s = presentWord w (s.withPending rest) := by
  simp [nextPresented, h]

theorem presentWord_ok {w : CmdWord} {i : Instr} (h : decode w = .ok i) (s : State) :
    presentWord w s = .command i s := by
  simp [presentWord, h]

theorem presentWord_error {w : CmdWord} {e : DecodeError} (h : decode w = .error e) (s : State) :
    presentWord w s = .unassigned w := by
  simp [presentWord, h]

end Sys2Proof.Machine
end

