-- ==== Sys2Proof/Laws/PerInstr.lean ====
section
/-! SUPPORT. Facts about the instruction as syntax, one lemma per constructor. -/

namespace Sys2Proof.Laws.WordShape

/-- The command is well formed, and its word carries its opcode and its operand in the fields of
spec/30_encoding.md R56. -/
def Statement (i : Instr) : Prop :=
  i.wf = true ∧ opField (encode i) = opcode i ∧ operandField (encode i) = Machine.argField i

theorem setpoly (p : Word) : Statement (.setpoly p) := ⟨rfl, by simp, by simp⟩
theorem getpoly : Statement .getpoly := ⟨rfl, by simp, by simp⟩
theorem setstart (v : Word) : Statement (.setstart v) := ⟨rfl, by simp, by simp⟩
theorem getstart : Statement .getstart := ⟨rfl, by simp, by simp⟩
theorem setend (v : Word) : Statement (.setend v) := ⟨rfl, by simp, by simp⟩
theorem getend : Statement .getend := ⟨rfl, by simp, by simp⟩
theorem setrevin (b : Bool) : Statement (.setrevin b) :=
  ⟨Machine.admits_zextBool b, by simp, by simp⟩
theorem getrevin : Statement .getrevin := ⟨rfl, by simp, by simp⟩
theorem setrevout (b : Bool) : Statement (.setrevout b) :=
  ⟨Machine.admits_zextBool b, by simp, by simp⟩
theorem getrevout : Statement .getrevout := ⟨rfl, by simp, by simp⟩
theorem reset : Statement .reset := ⟨rfl, by simp, by simp⟩
theorem addb (b : Byte) : Statement (.addb b) := ⟨Machine.admits_zextByte b, by simp, by simp⟩
theorem getcrc : Statement .getcrc := ⟨rfl, by simp, by simp⟩

end Sys2Proof.Laws.WordShape
end

