-- ==== Sys2Proof/Tests/Slice0.lean ====
section
/-! SUPPORT. Tests. Every expected value is read from spec/95_test_vectors.md (its tables V1 to V8 and its
start state of V6), from the worked encodings of spec/30_encoding.md R66, or from a rule named in the test.
`test_...` checks the model against the spec; `witness_...` shows a concrete input that meets the hypotheses
of the obligation it is named after, each clause at a boundary of its range. -/

namespace Sys2Proof.Tests

open Machine

/-! ## Helpers -/

/-- The block of table V6's start state. -/
def v6Block : Block :=
  { cfg := ⟨0xDEADBEEF, 0x12345678, 0x0F0F0F0F, false, true⟩, reg := 0xCAFEF00D }

/-- A machine with a given block, nothing presented and no response yet. -/
def machineOf (b : Block) : State := { block := b, pending := [], responses := [] }

/-- V6's start state. -/
def v6 : State := machineOf v6Block

/-- The machine of V6 with events to come. -/
def v6With (evs : List HostEvent) : State := { v6 with pending := evs }

/-- The block and the responses after a step that answers a next state. -/
def seen (o : Host.Outcome State Fault Refusal) : Option (Block × List Word) :=
  match o with
  | .next s => some (s.block, s.responses)
  | .fault _ => none
  | .refused _ => none

/-- `REG` after one `ADDB` from a table row of V3. -/
def regAfterAddb (reg : Word) (b : Byte) (p : Word) (ri : Bool) : Option Word :=
  (seen (exec (.addb b) (machineOf { cfg := { v6Block.cfg with poly := p, revIn := ri }, reg := reg }))).map
    fun r => r.1.reg

/-- The responses to one `GETCRC` from a table row of V5. -/
def crcResponse (reg e : Word) (ro : Bool) : Option (List Word) :=
  (seen (exec .getcrc (machineOf { cfg := { v6Block.cfg with endXor := e, revOut := ro }, reg := reg }))).map
    Prod.snd

/-- A word given most significant bit first, as the patterns of R56 are printed. -/
def bits (l : List (BitVec 8)) : CmdWord :=
  BitVec.ofNat 40 (l.foldl (fun n b => 256 * n + b.toNat) 0)

/-- No command decodes from a word the decoder rejects. -/
theorem no_command {w : CmdWord} (h : decode w = .error (.unassigned w)) (i : Instr) :
    decode w ≠ .ok i := by
  rw [h]; exact fun h => nomatch h

/-! ## Well-formedness: an ill-formed term for each check, which the check refuses -/

/-- R58: the bits an operand class does not use must be zero. -/
theorem test_operand_field_refused :
    OperandClass.none.admits 0x00000001 = false ∧ OperandClass.none.admits 0x80000000 = false ∧
    OperandClass.bool.admits 0x00000002 = false ∧ OperandClass.bool.admits 0x80000001 = false ∧
    OperandClass.byte.admits 0x00000100 = false ∧ OperandClass.byte.admits 0x80000000 = false := by
  decide

/-- R58: and the largest field each class takes. -/
theorem test_operand_field_admitted :
    OperandClass.none.admits 0 = true ∧ OperandClass.bool.admits 1 = true ∧
    OperandClass.byte.admits 0xFF = true ∧ OperandClass.u32.admits 0xFFFFFFFF = true := by
  decide

/-- R64: the range of a written operand, at its upper end. -/
theorem test_operand_range :
    OperandClass.bool.inRange 1 = true ∧ OperandClass.bool.inRange 2 = false ∧
    OperandClass.byte.inRange 255 = true ∧ OperandClass.byte.inRange 256 = false ∧
    OperandClass.u32.inRange 4294967295 = true ∧ OperandClass.u32.inRange 4294967296 = false ∧
    OperandClass.none.inRange 1 = false := by
  decide

/-- V8, R66: the ill-formed words; no row of the opcode table takes them. -/
theorem test_unassigned_words_match_no_row :
    ([0x0000000000, 0x0E00000000, 0xFF00000000, 0x0200000001, 0x0700000002, 0x0900000003, 0x0C00000100,
      0x0B80000000, 0x0D00000001, 0x0C00000131] : List CmdWord).all (fun w => !assignedWord w) = true := by
  decide

/-- V8: the well-formed words. -/
theorem test_assigned_words_match_a_row :
    ([0x0104C11DB7, 0x0100000000, 0x01FFFFFFFF, 0x0200000000, 0x03FFFFFFFF, 0x0400000000, 0x05FFFFFFFF,
      0x0600000000, 0x0700000001, 0x0700000000, 0x0800000000, 0x0900000000, 0x0900000001, 0x0A00000000,
      0x0B00000000, 0x0C00000031, 0x0C000000FF, 0x0D00000000] : List CmdWord).all assignedWord = true := by
  decide

/-! ## Decoding, by words written out from R56's bit patterns -/

theorem test_decode_setpoly :
    decode (bits [0b00000001, 0b00000100, 0b11000001, 0b00011101, 0b10110111]) =
      .ok (.setpoly 0x04C11DB7) := by decide
theorem test_decode_getpoly : decode (bits [0b00000010, 0, 0, 0, 0]) = .ok .getpoly := by decide
theorem test_decode_setstart :
    decode (bits [0b00000011, 0b00010010, 0b00110100, 0b01010110, 0b01111000]) =
      .ok (.setstart 0x12345678) := by decide
theorem test_decode_getstart : decode (bits [0b00000100, 0, 0, 0, 0]) = .ok .getstart := by decide
theorem test_decode_setend :
    decode (bits [0b00000101, 0b10000000, 0, 0, 0b00000001]) = .ok (.setend 0x80000001) := by decide
theorem test_decode_getend : decode (bits [0b00000110, 0, 0, 0, 0]) = .ok .getend := by decide
theorem test_decode_setrevin :
    decode (bits [0b00000111, 0, 0, 0, 0b00000001]) = .ok (.setrevin true) ∧
    decode (bits [0b00000111, 0, 0, 0, 0b00000000]) = .ok (.setrevin false) := by decide
theorem test_decode_getrevin : decode (bits [0b00001000, 0, 0, 0, 0]) = .ok .getrevin := by decide
theorem test_decode_setrevout :
    decode (bits [0b00001001, 0, 0, 0, 0b00000001]) = .ok (.setrevout true) ∧
    decode (bits [0b00001001, 0, 0, 0, 0b00000000]) = .ok (.setrevout false) := by decide
theorem test_decode_getrevout : decode (bits [0b00001010, 0, 0, 0, 0]) = .ok .getrevout := by decide
theorem test_decode_reset : decode (bits [0b00001011, 0, 0, 0, 0]) = .ok .reset := by decide
theorem test_decode_addb :
    decode (bits [0b00001100, 0, 0, 0, 0b00110001]) = .ok (.addb 0x31) := by decide
theorem test_decode_getcrc : decode (bits [0b00001101, 0, 0, 0, 0]) = .ok .getcrc := by decide

/-- V8: each unassigned word beside its nearest assigned word. -/
theorem test_decode_unassigned :
    ([0x0000000000, 0x0E00000000, 0xFF00000000, 0x0200000001, 0x0700000002, 0x0900000003, 0x0C00000100,
      0x0B80000000, 0x0D00000001, 0x0C00000131] : List CmdWord).all
        (fun w => decide (decode w = .error (.unassigned w))) = true := by
  decide

/-- The host's own question: the table's word is decoded, and step runs it first after reset. -/
theorem test_table_word :
    decodeTableWord 40 0x0C00000031 = some (.addb 0x31) ∧ decodeTableWord 40 0x0C00000131 = none ∧
    step (State.reset.withFetchWord 40 0x0300000007) = exec (.setstart 7) State.reset := by
  refine ⟨by decide, by decide, rfl⟩

/-! ## The bit-reversal unit and the shift network (V1, V2) -/

theorem test_rev8 :
    rev8 0x01 = 0x80 ∧ rev8 0x12 = 0x48 ∧ rev8 0x31 = 0x8C ∧ rev8 0x5B = 0xDA ∧ rev8 0xA5 = 0xA5 := by
  decide

theorem test_rev32 :
    rev32 0x00000100 = 0x00800000 ∧ rev32 0x12345678 = 0x1E6A2C48 ∧ rev32 0x04C11DB7 = 0xEDB88320 := by
  decide

theorem test_mix :
    mix 0xFFFFFFFF 0x31 = 0xCEFFFFFF ∧ mix 0x12345678 0xAB = 0xB9345678 ∧ mix 0x00FFFFFF 0xFF = 0xFFFFFFFF := by
  decide

theorem test_lfsr_bit :
    lfsrBit 0x7FFFFFFF 0x04C11DB7 = 0xFFFFFFFE ∧ lfsrBit 0xC0000000 0x04C11DB7 = 0x84C11DB7 ∧
    lfsrBit 0x40000000 0xFFFFFFFF = 0x80000000 ∧ lfsrBit 0x80000001 0x00000001 = 0x00000003 := by
  decide

theorem test_lfsr_byte :
    lfsrByte 0x80000000 0x04C11DB7 = 0x690CE0EE ∧ lfsrByte 0x12345678 0x1EDC6F41 = 0xFAF43DD3 ∧
    lfsrByte 0x12345678 0x00000000 = 0x34567800 := by
  decide

/-- V2, the traces of the first byte of S2 and of S1. -/
theorem test_lfsr_trace :
    lfsrShifts 0x04C11DB7 0xCEFFFFFF 3 = 0x6D79B24A ∧ lfsrShifts 0x04C11DB7 0x73FFFFFF 4 = 0x21B8AFF5 := by
  decide

/-! ## One step per command (V3 to V6) -/

theorem test_setpoly :
    seen (exec (.setpoly 0x04C11DB7) v6) =
      some ({ v6Block with cfg := { v6Block.cfg with poly := 0x04C11DB7 } }, []) := by decide
theorem test_getpoly : seen (exec .getpoly v6) = some (v6Block, [0xDEADBEEF]) := by decide
/-- V6: `REG` stays CAFEF00D. -/
theorem test_setstart :
    seen (exec (.setstart 0xFFFFFFFF) v6) =
      some ({ v6Block with cfg := { v6Block.cfg with startXor := 0xFFFFFFFF } }, []) := by decide
theorem test_getstart : seen (exec .getstart v6) = some (v6Block, [0x12345678]) := by decide
theorem test_setend :
    seen (exec (.setend 0) v6) = some ({ v6Block with cfg := { v6Block.cfg with endXor := 0 } }, []) := by
  decide
theorem test_getend : seen (exec .getend v6) = some (v6Block, [0x0F0F0F0F]) := by decide
theorem test_setrevin :
    seen (exec (.setrevin true) v6) =
      some ({ v6Block with cfg := { v6Block.cfg with revIn := true } }, []) := by decide
theorem test_getrevin : seen (exec .getrevin v6) = some (v6Block, [0x00000000]) := by decide
theorem test_setrevout :
    seen (exec (.setrevout false) v6) =
      some ({ v6Block with cfg := { v6Block.cfg with revOut := false } }, []) := by decide
theorem test_getrevout : seen (exec .getrevout v6) = some (v6Block, [0x00000001]) := by decide
theorem test_reset : seen (exec .reset v6) = some ({ v6Block with reg := 0x12345678 }, []) := by decide
theorem test_getcrc : seen (exec .getcrc v6) = some (v6Block, [0xBF00705C]) := by decide

theorem test_addb_straight :
    regAfterAddb 0xFFFFFFFF 0x31 0x04C11DB7 false = some 0x9EFBCF93 ∧
    regAfterAddb 0x00000000 0x80 0xFFFFFFFF false = some 0x00000040 ∧
    regAfterAddb 0xDEADBEEF 0x5B 0xA833982B false = some 0xAF1C042E ∧
    regAfterAddb 0x31ABCDEF 0x31 0x04C11DB7 false = some 0xABCDEF00 := by decide
theorem test_addb_reflected :
    regAfterAddb 0xFFFFFFFF 0x31 0x04C11DB7 true = some 0x1208C43E ∧
    regAfterAddb 0x00000000 0x80 0x04C11DB7 true = some 0x04C11DB7 ∧
    regAfterAddb 0xDEADBEEF 0x5B 0xA833982B true = some 0xF52427D1 ∧
    regAfterAddb 0x12345678 0xAB 0x00000000 true = some 0x34567800 := by decide

/-- V5: the reversal comes before the XOR. -/
theorem test_getcrc_rows :
    crcResponse 0x9B63D02C 0xFFFFFFFF true = some [0xCBF43926] ∧
    crcResponse 0x80000000 0x00000001 true = some [0x00000000] ∧
    crcResponse 0x12345678 0x0F0F0F0F true = some [0x11652347] ∧
    crcResponse 0x12345678 0x0F0F0F0F false = some [0x1D3B5977] := by decide

/-- R31, R185 with the start state of program P4's run B as the device constant. -/
theorem test_power_on :
    seen (stepWith v6Block.cfg { State.reset with pending := [.powerOnReset] }) =
      some ({ cfg := v6Block.cfg, reg := 0x12345678 }, []) := by decide

/-- V6 by the block alone (R9, R32): the response is returned, and the block holds nothing of it. -/
theorem test_block_alone :
    transition .getcrc v6Block = (v6Block, some 0xBF00705C) ∧
    runBlock [.reset, .getstart, .setpoly 0] v6Block =
      ({ cfg := { v6Block.cfg with poly := 0 }, reg := 0x12345678 }, [0x12345678]) := by decide

/-! ## The assembler and the host's calls (R64, R65, R107) -/

/-- Part 3 of spec/95_test_vectors.md: source lines of P1 and P3 and their words. The line with no blank
before its string is notes/assumptions/5.md. -/
theorem test_assemble :
    emitLine "CONSTRUCT 0x04C11DB7, 0xFFFFFFFF, 0xFFFFFFFF, 1, 1" =
      [0x0104C11DB7, 0x03FFFFFFFF, 0x05FFFFFFFF, 0x0700000001, 0x0900000001, 0x0B00000000] ∧
    emitLine "ADD \"12;3\" ; four bytes" = [0x0C00000031, 0x0C00000032, 0x0C0000003B, 0x0C00000033] ∧
    emitLine "ADD\"12\"" = [0x0C00000031, 0x0C00000032] ∧
    emitLine "ADD 0x31, 50" = [0x0C00000031, 0x0C00000032] ∧
    emitLine "GETCRC ; -> 0xCBF43926" = [0x0D00000000] ∧
    assemble ["", "; comment only", "ADD", "RESET"] = [0x0B00000000] := by decide +kernel

/-- R64: an operand outside its class is an assembly error, and the line emits nothing. -/
theorem test_assembly_errors :
    assembleLine "ADDB 0x100" = .error .operandOutsideClass ∧ emitLine "ADDB 0x100" = [] ∧
    assembleLine "SETREVIN 2" = .error .operandOutsideClass ∧
    assembleLine "SETPOLY 0x100000000" = .error .operandOutsideClass ∧
    assembleLine "GETCRC 0" = .error .operandOutsideClass ∧
    assembleLine "getcrc" = .error .unknownMnemonic ∧
    assembleLine "ADD \"abc" = .error .badString ∧
    assembleLine "ADD 1 2" = .error .badOperands ∧ assembleLine "ADD 1\"2\"" = .error .badOperands := by decide +kernel

/-- R107: the first `length` bytes, or a refusal. -/
theorem test_host_add :
    hostAdd [0x31, 0x32] 1 = .ok [.addb 0x31] ∧ hostAdd [0x31] 2 = .error (.lengthOutOfRange 2) := by
  decide

/-! ## Witnesses: each obligation's hypotheses are met -/

theorem witness_DecodeCaseTableAndInverse :
    ([0x01, 0x02, 0x03, 0x04, 0x05, 0x06, 0x07, 0x08, 0x09, 0x0A, 0x0B, 0x0C, 0x0D] :
      List (BitVec 8)).all (fun op => decide ((commandWord op 0).extractLsb' 32 8 = op) &&
        (decode (commandWord op 0)).toOption.isSome) = true ∧
    ([0x00, 0x0E, 0xFF] : List (BitVec 8)).all (fun op =>
      decide ((op = 0x00 ∨ 0x0E ≤ op.toNat) ∧ (commandWord op 0).extractLsb' 32 8 = op)) = true ∧
    decode 0x0C000000FF = .ok (.addb 0xFF) := by decide

theorem witness_DecodeMatchesOpcodeTable :
    decode 0x0104C11DB7 = .ok (.setpoly 0x04C11DB7) ∧ decode 0x0D00000000 = .ok .getcrc ∧
    opcodeTable[0]? = some ⟨"SETPOLY", 0x0100000000, 0xFF00000000⟩ ∧
    opcodeTable[12]? = some ⟨"GETCRC", 0x0D00000000, 0xFFFFFFFFFF⟩ := by decide

/-- Program P5's second word. -/
theorem witness_UnassignedWordRefused :
    (v6With [.command 0x0C00000131, .command 0x0D00000000]).pending =
      .command 0x0C00000131 :: [.command 0x0D00000000] ∧
    ∀ i, decode 0x0C00000131 ≠ .ok i :=
  ⟨rfl, no_command (by decide)⟩

theorem witness_StepRunsDecodedCommand :
    (v6With [.command 0x0C00000031, .powerOnReset]).pending = .command 0x0C00000031 :: [.powerOnReset] ∧
    decode 0x0C00000031 = .ok (.addb 0x31) := by decide

theorem witness_IdleStepHoldsState : v6.pending = [] := by decide

theorem witness_StreamIsLeftFoldOfExec :
    (v6With [.command 0x0B00000000, .command 0x0C00000031, .powerOnReset]).pending =
      presented [.reset, .addb 0x31] ++ [.powerOnReset] := by decide

/-- A run that answers a next state, and one that stops. -/
theorem witness_BlockStoresNoHostData :
    seen (stepsWith v6Block.cfg 1 (v6With [.command 0x0200000000])) = some (v6Block, [0xDEADBEEF]) ∧
    stepsWith v6Block.cfg 1 (v6With [.command 0x0C00000131]) = .refused (.unassignedWord 0x0C00000131) :=
  ⟨by decide, rfl⟩

theorem witness_EveryCommandCompletes :
    (v6With [.command 0x0E00000000]).pending = .command 0x0E00000000 :: [] ∧
    ∀ i, decode 0x0E00000000 ≠ .ok i :=
  ⟨rfl, no_command (by decide)⟩

theorem witness_PowerOnResetEffect :
    (v6With [.powerOnReset, .command 0x0D00000000]).pending = .powerOnReset :: [.command 0x0D00000000] := by
  decide

theorem witness_PowerOnAgainstSoftReset :
    (v6With [.powerOnReset]).pending = .powerOnReset :: [] ∧
    (v6With [.command 0x0B00000000]).pending = .command 0x0B00000000 :: [] ∧
    (v6With [.powerOnReset, .command 0x0B00000000]).pending =
      .powerOnReset :: .command 0x0B00000000 :: [] := by decide

theorem witness_SetPolyEffect :
    (0xDEADBEEF : Word) = v6.block.cfg.poly ∧ Element.reg ≠ .poly ∧ ((0 : Word) = 0) := by decide

theorem witness_GetPolyEffect :
    ∀ i ∈ ([.addb 0x31, .setstart 1, .reset] : List Instr), ∀ p, i ≠ .setpoly p := by simp

theorem witness_SetStartEffect :
    Element.reg ≠ .startXor ∧ ∀ i ∈ ([.addb 0x31, .getcrc, .setpoly 1] : List Instr), i ≠ .reset := by
  decide

theorem witness_SetEndEffect : Element.reg ≠ .endXor ∧ (0 : Word) = 0 := by decide

theorem witness_GetEndEffect :
    ∀ i ∈ ([.addb 0x31, .setrevout true, .reset] : List Instr), ∀ v, i ≠ .setend v := by simp

/-- Both ends of the range of unassigned words, and an element the command leaves alone. -/
theorem witness_SetRevInEffect :
    0x0700000002 ≤ (0x0700000002 : CmdWord).toNat ∧ (0x0700000002 : CmdWord).toNat ≤ 0x07FFFFFFFF ∧
    0x0700000002 ≤ (0x07FFFFFFFF : CmdWord).toNat ∧ (0x07FFFFFFFF : CmdWord).toNat ≤ 0x07FFFFFFFF ∧
    Element.reg ≠ .revIn := by decide

theorem witness_SetRevOutEffect :
    0x0900000002 ≤ (0x0900000002 : CmdWord).toNat ∧ (0x0900000002 : CmdWord).toNat ≤ 0x09FFFFFFFF ∧
    0x0900000002 ≤ (0x09FFFFFFFF : CmdWord).toNat ∧ (0x09FFFFFFFF : CmdWord).toNat ≤ 0x09FFFFFFFF ∧
    Element.reg ≠ .revOut := by decide

/-- An order with `RESET` last but one after `SETSTART`, and one with `RESET` first. -/
theorem witness_ConstructNetEffect :
    ([.setend 3, .setstart 2, .setrevin true, .reset, .setrevout false, .setpoly 1] : List Instr).Perm
      (constructExpansion 1 2 3 true false) ∧
    ([.setstart 2, .reset] : List Instr).Sublist
      [.setend 3, .setstart 2, .setrevin true, .reset, .setrevout false, .setpoly 1] ∧
    ([.reset, .setpoly 1, .setstart 2, .setend 3, .setrevin true, .setrevout false] : List Instr).Perm
      (constructExpansion 1 2 3 true false) ∧
    ([.reset, .setstart 2] : List Instr).Sublist
      [.reset, .setpoly 1, .setstart 2, .setend 3, .setrevin true, .setrevout false] := by decide

/-- Two states that agree on what `GETSTART` reads and on nothing else, and an element it does not write. -/
theorem witness_AccessMatrixHolds :
    (∀ e ∈ readsOf .getstart, v6.block.get e =
      (machineOf { cfg := ⟨0, 0x12345678, 0, true, false⟩, reg := 0 }).block.get e) ∧
    Element.reg ∉ writesOf (.setpoly 0) ∧ Element.poly ∈ writesOf (.setpoly 0) ∧
    (v6With [.powerOnReset]).pending = .powerOnReset :: [] ∧
    ({ State.reset with pending := [.powerOnReset, .powerOnReset] } : State).pending =
      .powerOnReset :: [.powerOnReset] := by decide

theorem witness_ResponsesOfEveryCommand :
    isGet (.addb 0) = false ∧ isGet .getpoly = true ∧ isGet .getcrc = true := by decide

theorem witness_ReadsPureAndWritesIdempotent :
    isGet .getcrc = true ∧ isGet .reset = false ∧ (∀ b, Instr.reset ≠ .addb b) ∧
    isGet (.setpoly 1) = false ∧ ∀ b, Instr.setpoly 1 ≠ .addb b := by simp [isGet]

theorem witness_ReadsCanBeDeleted : isGet .getrevout = true := by decide

theorem witness_ConfigRoundTrip :
    (∀ i ∈ ([.setstart 1, .getpoly] : List Instr), ∀ p, i ≠ .setpoly p) ∧
    (∀ i ∈ ([.reset, .setend 1] : List Instr), ∀ p, i ≠ .setstart p) ∧
    (∀ i ∈ ([.addb 1, .getcrc] : List Instr), ∀ p, i ≠ .setend p) ∧
    (∀ i ∈ ([.setrevout true] : List Instr), ∀ p, i ≠ .setrevin p) ∧
    (∀ i ∈ ([.setrevin true] : List Instr), ∀ p, i ≠ .setrevout p) ∧
    Instr.setpoly 1 ≠ .reset ∧ (∀ b, Instr.setpoly 1 ≠ .addb b) ∧ isGet (.setpoly 1) = false ∧
    isGet .getend = true ∧ Instr.getend ≠ .getcrc ∧ writesOf (.setpoly 1) ≠ readsOf .getend := by
  simp [isGet, writesOf, readsOf]

/-- The trace of V2 from 73FFFFFF: its first four values are those of `lfsrShifts`. -/
theorem witness_ShiftNetworkBits :
    (fun k => lfsrShifts 0x04C11DB7 0x73FFFFFF k) 0 = 0x73FFFFFF ∧
    (∀ i < 8, (fun k => lfsrShifts 0x04C11DB7 0x73FFFFFF k) (i + 1) =
      lfsrBit ((fun k => lfsrShifts 0x04C11DB7 0x73FFFFFF k) i) 0x04C11DB7) ∧
    (1 ≤ 31 ∧ 31 ≤ 31 ∧ 1 ≤ 1) ∧ lfsrBit 0x80000000 0x04C11DB7 = 0x04C11DB7 ∧
    lfsrBit 0x40000000 0xFFFFFFFF = 0x80000000 := by
  refine ⟨rfl, fun _ _ => rfl, by decide, by decide, by decide⟩

/-- R42 at both ends: with `CFG.REVIN` 1 the byte's bit 0 meets bit 31 of `REG`. -/
theorem witness_InputBitPlacement :
    0 < 8 ∧ 7 < 8 ∧ 23 < 24 ∧ (mix 0 (inputByte true 0x01)).getLsbD 31 = true ∧
    (mix 0 (inputByte false 0x01)).getLsbD 24 = true := by decide

theorem witness_AddbEffect :
    ((0x0C00000100 : CmdWord).extractLsb' 32 8 = 0x0C ∧ (0x0C00000100 : CmdWord).extractLsb' 8 24 ≠ 0) ∧
    Element.poly ≠ .reg ∧
    (0x31ABCDEF : Word).extractLsb' 24 8 = (if false then rev8 0x31 else 0x31) ∧
    (0x8C000000 : Word).extractLsb' 24 8 = (if true then rev8 0x31 else 0x31) ∧ rev8 0xA5 = 0xA5 := by
  decide

theorem witness_SoftResetEffect :
    (∀ i ∈ ([.setpoly 1, .getcrc, .setend 2] : List Instr), (∀ b, i ≠ .addb b) ∧ ∀ v, i ≠ .setstart v) ∧
    v6.block.cfg = (machineOf { v6Block with reg := 0 }).block.cfg := by
  refine ⟨by simp, by decide⟩

theorem witness_IncrementalEquivalence :
    (∀ i ∈ ([.addb 1, .setstart 2, .getcrc, .setend 3, .addb 4] : List Instr), undisturbed i = true) ∧
    ∀ i ∈ ([.addb 1, .getcrc, .addb 4] : List Instr), isGet i = true ∨ ∃ b, i = .addb b := by
  refine ⟨by decide, by simp [isGet]⟩

/-- One byte of S2 has been added since the reset; the next word presented is `ADDB 0x32`. -/
theorem witness_RegTracksBytesSinceReset :
    let s : State :=
      { block := { cfg := ⟨0x04C11DB7, 0xFFFFFFFF, 0, false, false⟩, reg := 0x9EFBCF93 },
        pending := [.command 0x0C00000032],
        responses := [] }
    RegTracks { seed := 0xFFFFFFFF, bytes := [0x31], intact := true } s ∧
    seen (stepWith v6Block.cfg s) = some ({ s.block with reg := 0x3FEC5E6A }, []) := by
  refine ⟨fun _ => by decide, by decide⟩

theorem witness_BitReversalPermutesBits :
    (0 ≤ 8 - 1 ∧ 7 ≤ 8 - 1 ∧ 0 < 8) ∧ (rev (0x01 : Byte)).getLsbD 7 = true ∧ (0 ≤ 1 - 1 ∧ 0 < 1) ∧
    (31 ≤ 31 ∧ (rev32 0x00000001).getLsbD 31 = true) := by decide

theorem witness_GetCrcEffect :
    (machineOf { cfg := ⟨0x04C11DB7, 0xFFFFFFFF, 0xFFFFFFFF, true, true⟩, reg := 5 }).block.cfg.startXor =
      0xFFFFFFFF ∧
    (machineOf { cfg := ⟨0x04C11DB7, 0xFFFFFFFF, 0xFFFFFFFF, true, true⟩, reg := 5 }).block.cfg.endXor =
      0xFFFFFFFF ∧
    State.reset.block.cfg.revOut = false ∧ State.reset.block.cfg.endXor = 0 ∧
    rev32 0x80000001 = 0x80000001 := by decide

theorem witness_GetCrcIdempotent :
    (∀ i ∈ ([.setpoly 1, .setstart 2, .setrevin true, .getcrc, .getpoly] : List Instr),
      (∀ b, i ≠ .addb b) ∧ i ≠ .reset ∧ (∀ v, i ≠ .setend v) ∧ ∀ b, i ≠ .setrevout b) ∧
    let r' := machineOf { v6Block with cfg := { v6Block.cfg with poly := 0, startXor := 0, revIn := true } }
    v6.block.reg = r'.block.reg ∧ v6.block.cfg.revOut = r'.block.cfg.revOut ∧
      v6.block.cfg.endXor = r'.block.cfg.endXor := by
  refine ⟨by simp, by decide⟩

/-- Two states that differ in the read-out configuration alone, and two that agree only in what `GETCRC`
reads. -/
theorem witness_RegIgnoresReadOutConfiguration :
    let s' := machineOf { v6Block with cfg := { v6Block.cfg with endXor := 0, revOut := false } }
    let r' := machineOf { v6Block with cfg := { v6Block.cfg with poly := 0, startXor := 0, revIn := true } }
    (v6.block.cfg.poly = s'.block.cfg.poly ∧ v6.block.cfg.startXor = s'.block.cfg.startXor ∧
      v6.block.cfg.revIn = s'.block.cfg.revIn ∧ v6.block.reg = s'.block.reg) ∧
    v6.block.reg = r'.block.reg ∧ v6.block.cfg.revOut = r'.block.cfg.revOut ∧
    v6.block.cfg.endXor = r'.block.cfg.endXor := by decide

/-- Program P1 with one byte, and a word more to come. -/
theorem witness_ChecksumFromAnyState :
    (v6With [.command 0x0104C11DB7, .command 0x03FFFFFFFF, .command 0x05FFFFFFFF, .command 0x0700000001,
      .command 0x0900000001, .command 0x0B00000000, .command 0x0C00000031, .command 0x0D00000000,
      .powerOnReset]).pending =
    presented (constructExpansion 0x04C11DB7 0xFFFFFFFF 0xFFFFFFFF true true ++ addExpansion [0x31] ++
      [.getcrc]) ++ [.powerOnReset] := by decide

/-- Program P4 with one byte, with and without its `RESET`. -/
theorem witness_ConstructionEquivalence :
    (v6With [.powerOnReset, .command 0x0104C11DB7, .command 0x03FFFFFFFF, .command 0x05FFFFFFFF,
      .command 0x0700000001, .command 0x0900000001, .command 0x0B00000000, .command 0x0C00000031,
      .command 0x0D00000000]).pending =
    .powerOnReset :: presented ([.setpoly 0x04C11DB7, .setstart 0xFFFFFFFF, .setend 0xFFFFFFFF,
      .setrevin true, .setrevout true, .reset] ++ addExpansion [0x31] ++ [.getcrc]) ++ [] ∧
    (v6With [.powerOnReset, .command 0x0104C11DB7, .command 0x03FFFFFFFF, .command 0x05FFFFFFFF,
      .command 0x0700000001, .command 0x0900000001, .command 0x0C00000031, .command 0x0D00000000]).pending =
    .powerOnReset :: presented ([.setpoly 0x04C11DB7, .setstart 0xFFFFFFFF, .setend 0xFFFFFFFF,
      .setrevin true, .setrevout true] ++ addExpansion [0x31] ++ [.getcrc]) ++ [] := by decide

theorem witness_BootSequence :
    (∀ i ∈ ([.setrevin true, .setstart 2, .setend 3, .reset, .setpoly 1] : List Instr),
      i ∈ constructExpansion 1 2 3 true false) ∧
    Instr.setpoly 1 ∈ ([.setrevin true, .setstart 2, .setend 3, .reset, .setpoly 1] : List Instr) ∧
    Instr.setrevin true ∈ ([.setrevin true, .setstart 2, .setend 3, .reset, .setpoly 1] : List Instr) ∧
    ([.setstart 2, .reset] : List Instr).Sublist
      [.setrevin true, .setstart 2, .setend 3, .reset, .setpoly 1] ∧
    (∀ i ∈ ([.addb 0x31, .setrevout false, .addb 0x32] : List Instr),
      (∃ b, i = .addb b) ∨ i = .setend 3 ∨ i = .setrevout false) ∧
    Instr.setend 3 ∈ ([.setrevin true, .setstart 2, .setend 3, .reset, .setpoly 1] ++
      [.addb 0x31, .setrevout false, .addb 0x32] : List Instr) ∧
    Instr.setrevout false ∈ ([.setrevin true, .setstart 2, .setend 3, .reset, .setpoly 1] ++
      [.addb 0x31, .setrevout false, .addb 0x32] : List Instr) := by
  refine ⟨by decide, by decide, by decide, by decide, by simp, by decide, by decide⟩

theorem witness_WellFedInvariant :
    (v6With [.command 0x0C00000031, .powerOnReset]).wellFed = true ∧
    (v6With [.command 0x0C00000131]).wellFed = false ∧
    ∃ t, stepWith v6Block.cfg (v6With [.command 0x0C00000031, .powerOnReset]) = .next t ∧
      t.wellFed = true := by
  refine ⟨by decide, by decide, _, rfl, by decide⟩

theorem witness_FiniteStreamRunsToItsEnd :
    (v6With [.command 0x0C00000031, .powerOnReset, .command 0x0D00000000]).wellFed = true := by decide

/-- Both ends of the range of `length`, and the first values outside it. -/
theorem witness_HostAddSendsOrRefuses :
    let data : List Byte := [0x31, 0x32]
    ((0 : Int) ≤ 0 ∧ (0 : Int) ≤ data.length) ∧ ((0 : Int) ≤ 2 ∧ (2 : Int) ≤ data.length) ∧
    ((-1 : Int) < 0 ∨ (data.length : Int) < -1) ∧ ((3 : Int) < 0 ∨ (data.length : Int) < 3) := by decide

/-- `add` with one of two bytes, followed by another event; and a call that sends nothing. -/
theorem witness_InterfaceTableRows :
    ApiCall.events (.add [0x31, 0x32] 1) = .ok [.command 0x0C00000031] ∧
    (v6With [.command 0x0C00000031, .powerOnReset]).pending = [.command 0x0C00000031] ++ [.powerOnReset] ∧
    ApiCall.events (.add [0x31] 0) = .ok [] ∧
    ApiCall.events .constructDefault = .ok [.powerOnReset] := by decide

/-- Both sides of each operand's range, and a line that is an error. -/
theorem witness_AssemblerOperands :
    expandLine .setpoly [.num 0xFFFFFFFF] = some [.setpoly 0xFFFFFFFF] ∧
    expandLine .setpoly [.num 0x100000000] = none ∧ expandLine .setrevin [.num 1] = some [.setrevin true] ∧
    expandLine .setrevin [.num 2] = none ∧ expandLine .addb [.num 0xFF] = some [.addb 0xFF] ∧
    expandLine .addb [.num 0x100] = none ∧
    assembleLine "ADDB 256" = .error .operandOutsideClass := by decide +kernel

end Sys2Proof.Tests
end

section
/-! PROOFS. The rules the statements of spec/10_state.md rest on: what one transition reads, writes and
responds (R30), and everything one step of the machine can do. -/

namespace Sys2Proof.Machine

/-! ## Operand values -/

@[simp] theorem zextBool_inj {a b : Bool} : zextBool a = zextBool b ↔ a = b :=
  (Function.LeftInverse.injective boolOperand_zextBool).eq_iff

theorem zextBool_toNat_lt (b : Bool) : (zextBool b).toNat < 2 ^ 1 := by
  cases b <;> decide

theorem zextByte_toNat_lt (b : Byte) : (zextByte b).toNat < 2 ^ 8 := by
  simpa [zextByte] using (Nat.mod_le b.toNat _).trans_lt b.isLt

/-- The operand column of R30: the field `arg` is no wider than the row says. -/
theorem argField_toNat_lt (i : Instr) : (argField i).toNat < 2 ^ operandBits i := by
  cases i with
  | setpoly v | setstart v | setend v => exact v.isLt
  | setrevin b | setrevout b => exact zextBool_toNat_lt b
  | addb b => exact zextByte_toNat_lt b
  | getpoly | getstart | getend | getrevin | getrevout | reset | getcrc => exact Nat.two_pow_pos 0

/-! ## Each register write changes its own element only -/

section
variable {e : Element} (b : Block)

theorem Block.setPoly_get (he : e ≠ .poly) (v : Word) : (b.setPoly v).get e = b.get e := by
  cases e with
  | poly => exact absurd rfl he
  | _ => rfl

theorem Block.setStart_get (he : e ≠ .startXor) (v : Word) : (b.setStart v).get e = b.get e := by
  cases e with
  | startXor => exact absurd rfl he
  | _ => rfl

theorem Block.setEnd_get (he : e ≠ .endXor) (v : Word) : (b.setEnd v).get e = b.get e := by
  cases e with
  | endXor => exact absurd rfl he
  | _ => rfl

theorem Block.setRevIn_get (he : e ≠ .revIn) (v : Bool) : (b.setRevIn v).get e = b.get e := by
  cases e with
  | revIn => exact absurd rfl he
  | _ => rfl

theorem Block.setRevOut_get (he : e ≠ .revOut) (v : Bool) : (b.setRevOut v).get e = b.get e := by
  cases e with
  | revOut => exact absurd rfl he
  | _ => rfl

theorem Block.setReg_get (he : e ≠ .reg) (v : Word) : (b.setReg v).get e = b.get e := by
  cases e with
  | reg => exact absurd rfl he
  | _ => rfl

end

/-! ## One transition of the block -/

/-- The response of every command is the response column of R30. -/
theorem transition_response (i : Instr) (b : Block) : (transition i b).2 = responseColumn i b := by
  cases i <;> rfl

/-- The frame of every command: an element its row of R30 does not mark `w` keeps its value. -/
theorem transition_get_of_notMem_writesOf {i : Instr} {e : Element} (he : e ∉ writesOf i) (b : Block) :
    (transition i b).1.get e = b.get e := by
  have hne {x : Element} (hx : x ∈ writesOf i) : e ≠ x := fun h => he (h ▸ hx)
  cases i with
  | setpoly p => exact b.setPoly_get (hne (.head _)) p
  | setstart v => exact b.setStart_get (hne (.head _)) v
  | setend v => exact b.setEnd_get (hne (.head _)) v
  | setrevin v => exact b.setRevIn_get (hne (.head _)) v
  | setrevout v => exact b.setRevOut_get (hne (.head _)) v
  | reset | addb v => exact b.setReg_get (hne (.head _)) _
  | getpoly | getstart | getend | getrevin | getrevout | getcrc => rfl

/-- What a command writes depends on nothing but the elements its row of R30 marks `r`. -/
theorem transition_get_congr {i : Instr} {b b' : Block} (hr : ∀ e ∈ readsOf i, b.get e = b'.get e) :
    ∀ e ∈ writesOf i, (transition i b).1.get e = (transition i b').1.get e := by
  cases i with
  | setpoly p | setstart v | setend v | setrevin v | setrevout v =>
    simp [writesOf, transition, Block.get]
  | reset => simpa [readsOf, writesOf, transition, Block.get] using hr
  | addb v =>
    obtain ⟨hpoly, hrevIn, hreg⟩ : b.cfg.poly = b'.cfg.poly ∧ b.cfg.revIn = b'.cfg.revIn ∧
      b.reg = b'.reg := by simpa [readsOf, Block.get] using hr
    simp [writesOf, transition, Block.get, hpoly, hrevIn, hreg]
  | getpoly | getstart | getend | getrevin | getrevout | getcrc => simp [writesOf]

/-- What a command responds depends on nothing but the elements its row of R30 marks `r`. -/
theorem responseColumn_congr {i : Instr} {b b' : Block} (hr : ∀ e ∈ readsOf i, b.get e = b'.get e) :
    responseColumn i b = responseColumn i b' := by
  cases i with
  | setpoly _ | setstart _ | setend _ | setrevin _ | setrevout _ | reset | addb _ => rfl
  | getpoly => exact congrArg some (hr .poly (.head _))
  | getstart => exact congrArg some (hr .startXor (.head _))
  | getend => exact congrArg some (hr .endXor (.head _))
  | getrevin => exact congrArg some (hr .revIn (.head _))
  | getrevout => exact congrArg some (hr .revOut (.head _))
  | getcrc =>
    obtain ⟨hend, hrevOut, hreg⟩ : b.cfg.endXor = b'.cfg.endXor ∧ b.cfg.revOut = b'.cfg.revOut ∧
      b.reg = b'.reg := by simpa [readsOf, Block.get] using hr
    simp [responseColumn, hend, hrevOut, hreg]

/-- Every command completes (R165), with the block and the response of its transition. -/
theorem exec_exists_next (i : Instr) (s : State) :
    ∃ t, exec i s = .next t ∧ t.block = (transition i s.block).1 ∧
      t.responses = s.responses ++ (responseColumn i s.block).toList :=
  ⟨_, exec_eq_atPort i s, rfl, by rw [← transition_response]⟩

/-! ## One step of the machine -/

section
variable {s : State} (d : CrcConfig)

theorem stepWith_of_nothing (h : nextPresented s = .nothing) : stepWith d s = .next s := by
  simp only [stepWith, h, idleStep]

theorem stepWith_of_powerOnReset {m : State} (h : nextPresented s = .powerOnReset m) :
    stepWith d s = .next { m with block := Block.powerOn d } := by
  simp only [stepWith, h, powerOnStep]

theorem stepWith_of_command {i : Instr} {m : State} (h : nextPresented s = .command i m) :
    stepWith d s = exec i m := by
  simp only [stepWith, h]

theorem stepWith_of_unassigned {w : CmdWord} (h : nextPresented s = .unassigned w) :
    stepWith d s = .refused (.unassignedWord w) := by
  simp only [stepWith, h, refuseStep]

end

/-- The machine a command is executed in is the one before with the word taken from the port. -/
theorem block_of_nextPresented_command {s m : State} {i : Instr}
    (h : nextPresented s = .command i m) : m.block = s.block := by
  match hp : s.pending with
  | [] => rw [nextPresented_nil hp] at h; cases h
  | .powerOnReset :: rest => rw [nextPresented_powerOnReset hp] at h; cases h
  | .command w :: rest =>
    rw [nextPresented_command hp] at h
    cases hd : decode w with
    | ok j => rw [presentWord_ok hd] at h; cases h; rfl
    | error e => rw [presentWord_error hd] at h; cases h

/-! ## The fold of the bytes -/

/-- `fold` is the library's left fold, so that the library's lemmas apply to it. -/
theorem fold_eq_foldl (p : Word) (ri : Bool) (r : Word) (bs : List Byte) :
    fold p ri r bs = bs.foldl (addbFn p ri) r := by
  induction bs generalizing r with
  | nil => rfl
  | cons b bs ih => exact ih (addbFn p ri r b)

theorem fold_append (p : Word) (ri : Bool) (r : Word) (xs ys : List Byte) :
    fold p ri r (xs ++ ys) = fold p ri (fold p ri r xs) ys := by
  simp only [fold_eq_foldl, List.foldl_append]

theorem fold_concat (p : Word) (ri : Bool) (r : Word) (bs : List Byte) (b : Byte) :
    fold p ri r (bs ++ [b]) = addbFn p ri (fold p ri r bs) b :=
  fold_append p ri r bs [b]

/-! ## The invariant of `REG` (R27) -/

/-- The invariant holds just after a power-on reset, whatever stands at the port. -/
theorem regTracks_powerOn (d : CrcConfig) {s : State} (hb : s.block = Block.powerOn d) :
    RegTracks (SinceReset.powerOn d) s := by
  intro _
  rw [hb]
  rfl

/-- Every command keeps the invariant: `ADDB` appends its byte to the fold, `RESET` starts a new one,
`SETPOLY` and `SETREVIN` end the proviso, and no other command touches what the invariant speaks of. -/
theorem regTracks_command {h : SinceReset} {i : Instr} {s t : State} (hs : RegTracks h s)
    (he : exec i s = .next t) : RegTracks (h.command i s.block) t := by
  obtain ⟨hb, -, -⟩ := exec_eq_next.mp he
  unfold RegTracks
  rw [hb]
  cases i with
  | setpoly _ | setrevin _ => exact fun hfalse => nomatch hfalse
  | reset => exact fun _ => rfl
  | addb v =>
    intro hi
    simp [transition, SinceReset.command, fold_concat, hs hi]
  | setstart _ | setend _ | setrevout _ | getpoly | getstart | getend | getrevin | getrevout | getcrc =>
    exact hs

/-- Settles O35: a step is idle, a power-on reset or a command, and each keeps the invariant; at an
unassigned word there is no next state. -/
theorem regTracksBytesSinceReset : Obligations.RegTracksBytesSinceReset := by
  intro d h s t hs hstep
  cases hn : nextPresented s with
  | nothing =>
    rw [stepWith_of_nothing d hn] at hstep
    cases hstep
    simpa only [SinceReset.next, hn] using hs
  | powerOnReset m =>
    rw [stepWith_of_powerOnReset d hn] at hstep
    cases hstep
    simpa only [SinceReset.next, hn] using regTracks_powerOn d rfl
  | command i m =>
    rw [stepWith_of_command d hn] at hstep
    have hm : RegTracks h m := by
      rw [RegTracks, block_of_nextPresented_command hn]
      exact hs
    simpa only [SinceReset.next, hn] using regTracks_command hm hstep
  | unassigned w =>
    rw [stepWith_of_unassigned d hn] at hstep
    cases hstep

/-! ## The access matrix (R30) -/

/-- Settles O23: the four clauses are the operand column, the frame with the response column, the
independence of what the row does not mark `r`, and the row of the power-on reset. -/
theorem accessMatrixHolds : Obligations.AccessMatrixHolds := by
  refine ⟨argField_toNat_lt, fun i s => ?_, fun i s s' hr => ?_, fun d s s' rest rest' hs hs' => ?_⟩
  · obtain ⟨t, ht, hb, hresp⟩ := exec_exists_next i s
    exact ⟨t, ht, fun e he => hb ▸ transition_get_of_notMem_writesOf he s.block, hresp⟩
  · obtain ⟨t, ht, hb, hresp⟩ := exec_exists_next i s
    obtain ⟨t', ht', hb', hresp'⟩ := exec_exists_next i s'
    refine ⟨t, t', (responseColumn i s.block).toList, ht, ht', ?_, hresp, ?_⟩
    · rw [hb, hb']
      exact transition_get_congr hr
    · rw [hresp', responseColumn_congr hr]
  · exact ⟨_, _, stepWith_of_powerOnReset d (nextPresented_powerOnReset hs),
      stepWith_of_powerOnReset d (nextPresented_powerOnReset hs'), rfl, rfl⟩

end Sys2Proof.Machine
end

section
/-! PROOFS. The rules the statements of spec/20_memory.md rest on: what one command and a stream of them
answer (R46 to R48), and where the bits of an input byte go (R42). -/

namespace Sys2Proof.Machine

/-! ## The word of a command -/

/-- A command's operand field lies in its class (R58). -/
@[simp] theorem admits_argField (i : Instr) : (operandClass i).admits (argField i) = true := by
  cases i with
  | setrevin b | setrevout b => exact admits_zextBool b
  | addb b => exact admits_zextByte b
  | setpoly _ | setstart _ | setend _ => rfl
  | getpoly | getstart | getend | getrevin | getrevout | reset | getcrc => rfl

/-- A command's own word is admitted for the class of its operand. -/
theorem admitted_encode (i : Instr) : admitted (operandClass i) (encode i) i = .ok i :=
  admitted_eq_ok.mpr ⟨by simp, rfl⟩

/-- The word of a command decodes to that command (R61). -/
@[simp] theorem decode_encode (i : Instr) : decode (encode i) = .ok i := by
  have hadm := admitted_encode i
  unfold decode
  rw [opField_encode, operandField_encode]
  cases i with
  | setrevin b | setrevout b =>
    rw [argField, boolOperand_zextBool]
    exact hadm
  | addb b =>
    rw [argField, byteOperand_zextByte]
    exact hadm
  | setpoly _ | setstart _ | setend _ => rfl
  | getpoly | getstart | getend | getrevin | getrevout | reset | getcrc => exact hadm

/-- A step with a command's word presented is `exec` of the command, that word taken from the port. -/
theorem stepWith_encode {s : State} {i : Instr} {rest : List HostEvent} (d : CrcConfig)
    (h : s.pending = .command (encode i) :: rest) : stepWith d s = exec i (s.withPending rest) :=
  stepWith_of_command d ((nextPresented_command h).trans (presentWord_ok (decode_encode i) _))

/-! ## One command and a stream of commands -/

/-- `exec` written as a function of the block's transition. -/
theorem exec_of_transition {i : Instr} {s : State} {c : Block} {r : Option Word}
    (h : transition i s.block = (c, r)) :
    exec i s = .next ⟨c, s.pending, s.responses ++ r.toList⟩ :=
  exec_eq_next.mpr (by simp [h])

/-- A command does not look at what the host presents after it. -/
theorem exec_withPending {i : Instr} {s t : State} (h : exec i s = .next t) (evs : List HostEvent) :
    exec i (s.withPending evs) = .next (t.withPending evs) := by
  obtain ⟨hb, -, hr⟩ := exec_eq_next.mp h
  exact exec_eq_next.mpr ⟨hb, rfl, hr⟩

/-- A stream always completes, and leaves the port as it was. -/
theorem execAll_exists_next (cs : List Instr) (s : State) :
    ∃ t, execAll cs s = .next t ∧ t.pending = s.pending := by
  induction cs generalizing s with
  | nil => exact ⟨s, rfl, rfl⟩
  | cons i cs ih =>
    obtain ⟨m, hm, -⟩ := exec_exists_next i s
    obtain ⟨-, hmp, -⟩ := exec_eq_next.mp hm
    obtain ⟨t, ht, htp⟩ := ih m
    exact ⟨t, by rw [execAll_cons, hm, andThen_next, ht], htp.trans hmp⟩

/-- The words of a stream at the port run the stream (R48). -/
theorem stepsWith_presented (d : CrcConfig) (cs : List Instr) {rest : List HostEvent} {s : State}
    (h : s.pending = presented cs ++ rest) :
    stepsWith d cs.length s = execAll cs (s.withPending rest) := by
  induction cs generalizing s with
  | nil =>
    obtain rfl : s.pending = rest := h
    rfl
  | cons i cs ih =>
    obtain ⟨m, hm, -⟩ := exec_exists_next i s
    have hhead : s.pending = .command (encode i) :: (presented cs ++ rest) := h
    calc stepsWith d (cs.length + 1) s
      _ = andThen (exec i (s.withPending (presented cs ++ rest))) (stepsWith d cs.length) := by
        rw [stepsWith_succ, stepWith_encode d hhead]
      _ = stepsWith d cs.length (m.withPending (presented cs ++ rest)) := by
        rw [exec_withPending hm, andThen_next]
      _ = execAll cs (m.withPending rest) := ih rfl
      _ = execAll (i :: cs) (s.withPending rest) := by
        rw [execAll_cons, exec_withPending hm, andThen_next]

/-- Settles O7: each step at a command's word is `exec` of that command, so the steps are the left fold,
by induction on the stream; and the fold completes because every command does. -/
theorem streamIsLeftFoldOfExec : Obligations.StreamIsLeftFoldOfExec :=
  fun d cs rest s h => ⟨stepsWith_presented d cs h, execAll_exists_next cs (s.withPending rest)⟩

/-! ## Reads and writes (R47) -/

/-- A `GET...` command leaves the block as it was and responds. -/
theorem transition_of_isGet {i : Instr} (h : isGet i = true) (b : Block) :
    ∃ r, transition i b = (b, some r) := by
  cases i with
  | setpoly _ | setstart _ | setend _ | setrevin _ | setrevout _ | reset | addb _ => cases h
  | getpoly | getstart | getend | getrevin | getrevout | getcrc => exact ⟨_, rfl⟩

/-- `RESET` and every `SET...` give no response, and executed once more change nothing more. -/
theorem transition_idempotent {i : Instr} (hget : isGet i = false) (hadd : ∀ v, i ≠ .addb v) (b : Block) :
    ∃ c, transition i b = (c, none) ∧ transition i c = (c, none) := by
  cases i with
  | setpoly _ | setstart _ | setend _ | setrevin _ | setrevout _ | reset => exact ⟨_, rfl, rfl⟩
  | addb v => exact absurd rfl (hadd v)
  | getpoly | getstart | getend | getrevin | getrevout | getcrc => cases hget

/-- `ADDB` folds its byte into `REG` and does nothing else (R101). -/
theorem exec_addb (v : Byte) (s : State) :
    exec (.addb v) s =
      .next { s with block := s.block.setReg (addbFn s.block.cfg.poly s.block.cfg.revIn s.block.reg v) } :=
  exec_eq_next.mpr ⟨rfl, rfl, (List.append_nil _).symm⟩

/-- A stream of `ADDB` folds its bytes into `REG` and does nothing else (R105). -/
theorem execAll_addExpansion (bs : List Byte) (s : State) :
    execAll (addExpansion bs) s =
      .next { s with block := s.block.setReg (fold s.block.cfg.poly s.block.cfg.revIn s.block.reg bs) } := by
  induction bs generalizing s with
  | nil => rfl
  | cons b bs ih =>
    rw [addExpansion, List.map_cons, execAll_cons, exec_addb, andThen_next]
    exact ih _

/-- Settles O25: a read returns the block it was given, a write but `ADDB` is a fixed point of itself, and
`ADDB 0x01` twice, under the polynomial `x^32 + 1`, leaves another `REG` than once. -/
theorem readsPureAndWritesIdempotent : Obligations.ReadsPureAndWritesIdempotent := by
  refine ⟨fun i s hget => ?_, fun i s hget hadd => ?_, fun b s => ?_, ?_⟩
  · obtain ⟨r, hr⟩ := transition_of_isGet hget s.block
    exact ⟨_, _, r, exec_of_transition hr, rfl, rfl, exec_of_transition hr, rfl,
      List.append_assoc s.responses [r] [r]⟩
  · obtain ⟨c, hfirst, hagain⟩ := transition_idempotent hget hadd s.block
    refine ⟨_, exec_of_transition hfirst, ?_⟩
    rw [exec_of_transition (s := ⟨c, _, _⟩) hagain]
    simp
  · exact ⟨_, execAll_addExpansion [b, b] s, rfl⟩
  · have honce : addbFn 1 false 0 0x01 = 1 := by decide
    have htwice : addbFn 1 false 1 0x01 = 0x101 := by decide
    refine ⟨0x01, ⟨⟨⟨1, 0, 0, false, false⟩, 0⟩, [], []⟩, _, _, exec_addb _ _, exec_addb _ _, ?_⟩
    simp only [Block.setReg_reg, Block.setReg_poly, Block.setReg_revIn, honce, htwice]
    decide

/-! ## Where the bits of an input byte go (R42) -/

/-- The mix puts bit `i` of the byte on bit `24 + i` of `REG`. -/
theorem mix_getLsbD_high (r : Word) (t : Byte) {i : Nat} (hi : i < 8) :
    (mix r t).getLsbD (24 + i) = (r.getLsbD (24 + i) ^^ t.getLsbD i) := by
  have hlt : 24 + i < 32 := by omega
  simp [mix, zextByte, hlt]

/-- The mix leaves bits 23:0 alone. -/
theorem mix_getLsbD_low (r : Word) (t : Byte) {i : Nat} (hi : i < 24) :
    (mix r t).getLsbD i = r.getLsbD i := by
  simp [mix, hi]

/-- The byte enters with its bits in opposite order exactly when `CFG.REVIN` is 1. -/
theorem inputByte_getLsbD (ri : Bool) (b : Byte) {i : Nat} (hi : i < 8) :
    (inputByte ri b).getLsbD i = b.getLsbD (if ri then 7 - i else i) := by
  cases ri with
  | false => rfl
  | true =>
    change (rev b).getLsbD i = b.getLsbD (7 - i)
    rw [rev_getLsbD, decide_eq_true hi, Bool.true_and]

@[simp] theorem lfsrBit_zero_poly (r : Word) : lfsrBit r 0 = r <<< 1 := by
  simp [lfsrBit]

/-- Under the polynomial 0 the network is a plain shift. -/
theorem lfsrShifts_zero_poly (r : Word) (k : Nat) : lfsrShifts 0 r k = r <<< k := by
  induction k with
  | zero => simp [lfsrShifts]
  | succ k ih => rw [lfsrShifts, ih, lfsrBit_zero_poly, BitVec.shiftLeft_add]

/-- Settles O29: the mix puts the byte on bits 31:24 of `REG`, and `k` plain shifts bring bit `31 - k` to
the top. -/
theorem inputBitPlacement : Obligations.InputBitPlacement := by
  intro p r ri b
  refine ⟨fun i hi => ?_, fun i hi => mix_getLsbD_low r _ hi, rfl, fun k hk => ?_⟩
  · rw [mix_getLsbD_high r _ hi, inputByte_getLsbD ri b hi]
  · have hle : ¬ 31 < k := by omega
    rw [lfsrShifts_zero_poly, BitVec.getLsbD_shiftLeft]
    simp [hle]

end Sys2Proof.Machine
end

section
/-! PROOFS. The rules the statements of spec/30_encoding.md rest on: the decoder by the two fields of a
word (R56, R61), the encoder as its inverse, the opcode table, and the calls of the interface table (R55). -/

namespace Sys2Proof.Machine

/-! ## Operand fields (R58) -/

/-- A field is zero from bit `k` up exactly when each of those bits is. -/
theorem extractLsb'_eq_zero_iff {k m : Nat} (hkm : k + m = 32) (a : Word) :
    a.extractLsb' k m = 0#m ↔ ∀ i, k ≤ i → a.getLsbD i = false := by
  constructor
  · intro h i hki
    by_cases hi : i < 32
    · have hlt : i - k < m := by omega
      have hadd : k + (i - k) = i := by omega
      simpa [hlt, hadd] using congrArg (·.getLsbD (i - k)) h
    · exact BitVec.getLsbD_of_ge a i (by omega)
  · intro h
    apply BitVec.eq_of_getLsbD_eq
    intro i hi
    simp [h (k + i) (by omega)]

/-- A class admits the fields whose bits from its width up are zero. -/
theorem admits_iff_getLsbD (c : OperandClass) (a : Word) :
    c.admits a = true ↔ ∀ i, c.width ≤ i → a.getLsbD i = false := by
  cases c with
  | u32 => exact iff_of_true rfl fun i hi => BitVec.getLsbD_of_ge a i hi
  | bool => exact beq_iff_eq.trans (extractLsb'_eq_zero_iff (k := 1) rfl a)
  | byte => exact beq_iff_eq.trans (extractLsb'_eq_zero_iff (k := 8) rfl a)
  | none =>
    have hall := extractLsb'_eq_zero_iff (k := 0) (m := 32) rfl a
    rw [BitVec.extractLsb'_eq_self] at hall
    exact beq_iff_eq.trans hall

/-- A field `BOOL` admits is the zero extension of its operand. -/
theorem zextBool_boolOperand {a : Word} (h : OperandClass.bool.admits a = true) :
    zextBool (boolOperand a) = a := by
  have hzero := (admits_iff_getLsbD .bool a).mp h
  apply BitVec.eq_of_getLsbD_eq
  intro i hi
  cases i with
  | zero => simp [zextBool, boolOperand]
  | succ i => simp [zextBool, hzero (i + 1) (Nat.le_add_left 1 i)]

/-- A field `BYTE` admits is the zero extension of its operand. -/
theorem zextByte_byteOperand {a : Word} (h : OperandClass.byte.admits a = true) :
    zextByte (byteOperand a) = a := by
  have hzero := (admits_iff_getLsbD .byte a).mp h
  apply BitVec.eq_of_getLsbD_eq
  intro i hi
  by_cases hlow : i < 8
  · simp [zextByte, byteOperand, hlow, hi]
  · simp [zextByte, byteOperand, hlow, hzero i (Nat.le_of_not_lt hlow)]

/-- The value of a one-bit register, as R60 gives it. -/
theorem zextBool_eq_ite (b : Bool) : zextBool b = if b then 1 else 0 := by
  cases b <;> rfl

/-- `admitted` for each class that has bits to test, the test written as R61 writes it. -/
theorem admitted_none (w : CmdWord) (i : Instr) :
    admitted .none w i = if operandField w = 0 then .ok i else .error (.unassigned w) := by
  simp [admitted, OperandClass.admits]

theorem admitted_bool (w : CmdWord) (i : Instr) :
    admitted .bool w i =
      if (operandField w).extractLsb' 1 31 = 0 then .ok i else .error (.unassigned w) := by
  simp [admitted, OperandClass.admits]

theorem admitted_byte (w : CmdWord) (i : Instr) :
    admitted .byte w i =
      if (operandField w).extractLsb' 8 24 = 0 then .ok i else .error (.unassigned w) := by
  simp [admitted, OperandClass.admits]

/-! ## The decoder (R61) -/

/-- The command with the operand replaced by the one the field `arg` holds. -/
def withOperand (i : Instr) (arg : Word) : Instr :=
  match i with
  | .setpoly _ => .setpoly arg
  | .setstart _ => .setstart arg
  | .setend _ => .setend arg
  | .setrevin _ => .setrevin (boolOperand arg)
  | .setrevout _ => .setrevout (boolOperand arg)
  | .addb _ => .addb (byteOperand arg)
  | .getpoly | .getstart | .getend | .getrevin | .getrevout | .reset | .getcrc => i

/-- The decoder on a word with the opcode of a command: the class of that command tests the operand
field, and the operand is read from it. -/
theorem decode_of_opField {w : CmdWord} {j : Instr} (h : opField w = opcode j) :
    decode w = admitted (operandClass j) w (withOperand j (operandField w)) := by
  unfold decode
  rw [h]
  cases j <;> rfl

/-- The decoder on a word whose opcode field is the opcode of no command. -/
theorem decode_of_opField_outside {w : CmdWord} (h : opField w = 0x00 ∨ 0x0E ≤ (opField w).toNat) :
    decode w = .error (.unassigned w) := by
  unfold decode
  split
  case h_14 => rfl
  all_goals
    next hop => simp [hop] at h

/-- The fields of a word that decodes are those of its command. -/
theorem fields_of_decode {w : CmdWord} {i : Instr} (h : decode w = .ok i) :
    opField w = opcode i ∧ operandField w = argField i := by
  unfold decode at h
  split at h
  case h_1 hop | h_3 hop | h_5 hop => cases h; exact ⟨hop, rfl⟩
  case h_7 hop | h_9 hop =>
    obtain ⟨hadm, rfl⟩ := admitted_eq_ok.mp h
    exact ⟨hop, (zextBool_boolOperand hadm).symm⟩
  case h_12 hop =>
    obtain ⟨hadm, rfl⟩ := admitted_eq_ok.mp h
    exact ⟨hop, (zextByte_byteOperand hadm).symm⟩
  case h_2 hop | h_4 hop | h_6 hop | h_8 hop | h_10 hop | h_11 hop | h_13 hop =>
    obtain ⟨hadm, rfl⟩ := admitted_eq_ok.mp h
    exact ⟨hop, eq_of_beq hadm⟩
  case h_14 => cases h

/-- A word with the opcode of a command decodes exactly when its operand field lies in the class of that
command. -/
theorem exists_decode_iff_admits {w : CmdWord} {j : Instr} (h : opField w = opcode j) :
    (∃ i, decode w = .ok i) ↔ (operandClass j).admits (operandField w) = true := by
  simp [decode_of_opField h, admitted_eq_ok]

/-- The word `encode` gives is the one word that decodes to the command. -/
theorem decode_eq_ok_iff {w : CmdWord} {i : Instr} : decode w = .ok i ↔ encode i = w := by
  constructor
  · intro h
    obtain ⟨hop, harg⟩ := fields_of_decode h
    rw [encode, ← hop, ← harg, commandWord_fields]
  · rintro rfl
    exact decode_encode i

theorem encode_injective : Function.Injective encode := fun i j h => by
  simpa using congrArg decode h

/-! ## The number of assigned words (R61) -/

/-- The commands by operand: three with a `U32`, two with a `BOOL`, one with a `BYTE`, seven with none. -/
def operandEquiv : Instr ≃ (Fin 3 × Word) ⊕ (Fin 2 × Bool) ⊕ Byte ⊕ Fin 7 where
  toFun
    | .setpoly p => .inl (0, p)
    | .setstart v => .inl (1, v)
    | .setend v => .inl (2, v)
    | .setrevin b => .inr (.inl (0, b))
    | .setrevout b => .inr (.inl (1, b))
    | .addb b => .inr (.inr (.inl b))
    | .getpoly => .inr (.inr (.inr 0))
    | .getstart => .inr (.inr (.inr 1))
    | .getend => .inr (.inr (.inr 2))
    | .getrevin => .inr (.inr (.inr 3))
    | .getrevout => .inr (.inr (.inr 4))
    | .reset => .inr (.inr (.inr 5))
    | .getcrc => .inr (.inr (.inr 6))
  invFun
    | .inl (k, v) => ![.setpoly v, .setstart v, .setend v] k
    | .inr (.inl (k, b)) => ![.setrevin b, .setrevout b] k
    | .inr (.inr (.inl b)) => .addb b
    | .inr (.inr (.inr k)) => ![.getpoly, .getstart, .getend, .getrevin, .getrevout, .reset, .getcrc] k
  left_inv i := by cases i <;> rfl
  right_inv
    | .inl (k, v) => by fin_cases k <;> rfl
    | .inr (.inl (k, b)) => by fin_cases k <;> rfl
    | .inr (.inr (.inl b)) => rfl
    | .inr (.inr (.inr k)) => by fin_cases k <;> rfl

theorem card_bitVec (n : Nat) : Nat.card (BitVec n) = 2 ^ n :=
  (Nat.card_congr BitVec.equivFin.toEquiv).trans (Nat.card_fin _)

theorem card_instr : Nat.card Instr = 3 * 2 ^ 32 + 2 * 2 + 2 ^ 8 + 7 := by
  rw [Nat.card_congr operandEquiv]
  have hbool : Nat.card Bool = 2 := Nat.card_eq_fintype_card.trans Fintype.card_bool
  simp only [Nat.card_sum, Nat.card_prod, Nat.card_fin, card_bitVec, hbool, Nat.add_assoc]

/-- Settles O2: each clause of the case table is `decode_of_opField` at a command of that opcode, and
`encode` is a bijection from the commands to the words that decode, so it suffices to count commands. -/
theorem decodeCaseTableAndInverse : Obligations.DecodeCaseTableAndInverse := by
  refine ⟨fun w => ⟨?_, ?_, ?_, ?_, ?_, ?_, ?_, ?_, ?_, ?_, ?_, ?_, ?_, decode_of_opField_outside⟩,
    decode_encode, fun w i => decode_eq_ok_iff.mp, ?_⟩
  · exact fun hop => decode_of_opField (j := .setpoly 0) hop
  · exact fun hop => (decode_of_opField (j := .getpoly) hop).trans (admitted_none w _)
  · exact fun hop => decode_of_opField (j := .setstart 0) hop
  · exact fun hop => (decode_of_opField (j := .getstart) hop).trans (admitted_none w _)
  · exact fun hop => decode_of_opField (j := .setend 0) hop
  · exact fun hop => (decode_of_opField (j := .getend) hop).trans (admitted_none w _)
  · exact fun hop => (decode_of_opField (j := .setrevin false) hop).trans (admitted_bool w _)
  · exact fun hop => (decode_of_opField (j := .getrevin) hop).trans (admitted_none w _)
  · exact fun hop => (decode_of_opField (j := .setrevout false) hop).trans (admitted_bool w _)
  · exact fun hop => (decode_of_opField (j := .getrevout) hop).trans (admitted_none w _)
  · exact fun hop => (decode_of_opField (j := .reset) hop).trans (admitted_none w _)
  · exact fun hop => (decode_of_opField (j := .addb 0) hop).trans (admitted_byte w _)
  · exact fun hop => (decode_of_opField (j := .getcrc) hop).trans (admitted_none w _)
  · simp only [decode_eq_ok_iff]
    exact (Nat.card_range_of_injective encode_injective).trans card_instr

/-! ## The opcode table (R56) -/

/-- The operand bits a class does not use (R58). -/
def OperandClass.unused (c : OperandClass) : Word := BitVec.allOnes 32 <<< c.width

theorem OperandClass.unused_getLsbD (c : OperandClass) (i : Nat) :
    c.unused.getLsbD i = decide (c.width ≤ i ∧ i < 32) := by
  rw [unused, BitVec.getLsbD_shiftLeft, BitVec.getLsbD_allOnes, Bool.eq_iff_iff]
  simp only [Bool.and_eq_true, Bool.not_eq_true', decide_eq_true_eq, decide_eq_false_iff_not]
  omega

/-- A class admits the fields whose unused bits are zero. -/
theorem and_unused_eq_zero_iff (c : OperandClass) (a : Word) :
    a &&& c.unused = 0 ↔ c.admits a = true := by
  have hbit (i : Nat) : (a &&& c.unused).getLsbD i = (a.getLsbD i && decide (c.width ≤ i ∧ i < 32)) := by
    rw [BitVec.getLsbD_and, c.unused_getLsbD]
  rw [admits_iff_getLsbD]
  constructor
  · intro h i hwi
    by_cases hi : i < 32
    · simpa [h, hwi, hi] using (hbit i).symm
    · exact BitVec.getLsbD_of_ge a i (Nat.le_of_not_lt hi)
  · intro h
    apply BitVec.eq_of_getLsbD_eq
    intro i _
    rw [hbit]
    by_cases hwi : c.width ≤ i
    · simp [h i hwi]
    · simp [hwi]

/-- The row is written for the command `j`: its columns are the opcode of `j` over no operand, and the
bits of the opcode field with those the operand class of `j` leaves unused. -/
abbrev RowOf (r : OpcodeRow) (j : Instr) : Prop :=
  r.pattern = commandWord (opcode j) 0 ∧ r.mask = commandWord 0xFF (operandClass j).unused

/-- One command per constructor, in the order of the table. -/
def commandShapes : List Instr :=
  [.setpoly 0, .getpoly, .setstart 0, .getstart, .setend 0, .getend, .setrevin false, .getrevin,
    .setrevout false, .getrevout, .reset, .addb 0, .getcrc]

/-- Row `k` of the table is written for the command with opcode `k + 1`. -/
theorem rowOf_of_getElem? {k : Nat} {r : OpcodeRow} (h : opcodeTable[k]? = some r) :
    ∃ j, (opcode j).toNat = k + 1 ∧ RowOf r j := by
  have hrows : ∀ k : Fin opcodeTable.length,
      ∃ j ∈ commandShapes, (opcode j).toNat = k + 1 ∧ RowOf opcodeTable[k] j := by decide
  obtain ⟨hk, rfl⟩ := List.getElem?_eq_some_iff.mp h
  obtain ⟨j, -, hj⟩ := hrows ⟨k, hk⟩
  exact ⟨j, hj⟩

/-- A row of the table matches the words that have its opcode and decode. -/
theorem row_matches_iff {r : OpcodeRow} {j : Instr} (hr : RowOf r j) (w : CmdWord) :
    r.matches w = true ↔ opField w = opcode j ∧ ∃ i, decode w = .ok i := by
  obtain ⟨hpattern, hmask⟩ := hr
  have hand : w &&& r.mask = commandWord (opField w) (operandField w &&& (operandClass j).unused) :=
    calc w &&& r.mask
      _ = commandWord (opField w) (operandField w) &&& commandWord 0xFF (operandClass j).unused := by
        rw [commandWord_fields, hmask]
      _ = commandWord (opField w &&& BitVec.allOnes 8) (operandField w &&& (operandClass j).unused) :=
        BitVec.and_append
      _ = commandWord (opField w) (operandField w &&& (operandClass j).unused) := by
        rw [BitVec.and_allOnes]
  rw [OpcodeRow.matches, beq_iff_eq, hand, hpattern]
  constructor
  · intro h
    have hop : opField w = opcode j := by simpa using congrArg opField h
    have harg : operandField w &&& (operandClass j).unused = 0 := by simpa using congrArg operandField h
    exact ⟨hop, (exists_decode_iff_admits hop).mpr ((and_unused_eq_zero_iff _ _).mp harg)⟩
  · rintro ⟨hop, hdec⟩
    rw [hop, (and_unused_eq_zero_iff _ _).mpr ((exists_decode_iff_admits hop).mp hdec)]

/-- The opcode of a command is the number of a row, counted from 1. -/
theorem exists_row_of_opcode (i : Instr) :
    ∃ k r, opcodeTable[k]? = some r ∧ (opcode i).toNat = k + 1 := by
  cases i <;> exact ⟨_, _, rfl, rfl⟩

/-- Settles O3: row `k` is the one of opcode `k + 1`, and it matches just the words with that opcode
that decode. -/
theorem decodeMatchesOpcodeTable : Obligations.DecodeMatchesOpcodeTable := by
  refine ⟨fun w => ?_, fun w i hdec k r hrow => ?_⟩
  · rw [assignedWord, List.any_eq_true]
    constructor
    · rintro ⟨r, hmem, hmatch⟩
      obtain ⟨k, hrow⟩ := List.mem_iff_getElem?.mp hmem
      obtain ⟨j, -, hj⟩ := rowOf_of_getElem? hrow
      exact ((row_matches_iff hj w).mp hmatch).2
    · rintro ⟨i, hdec⟩
      obtain ⟨hop, -⟩ := fields_of_decode hdec
      obtain ⟨k, r, hrow, hk⟩ := exists_row_of_opcode i
      obtain ⟨j, hjk, hj⟩ := rowOf_of_getElem? hrow
      have hij : opcode i = opcode j := BitVec.eq_of_toNat_eq (hk.trans hjk.symm)
      exact ⟨r, List.mem_of_getElem? hrow, (row_matches_iff hj w).mpr ⟨hop.trans hij, i, hdec⟩⟩
  · obtain ⟨hop, -⟩ := fields_of_decode hdec
    obtain ⟨j, hjk, hj⟩ := rowOf_of_getElem? hrow
    rw [row_matches_iff hj, hop, ← hjk, BitVec.toNat_inj]
    exact ⟨fun h => h.1.symm, fun h => ⟨h.symm, i, hdec⟩⟩

/-! ## Responses (R60) -/

/-- A command that is no `GET...` has an empty response column. -/
theorem responseColumn_eq_none {i : Instr} (h : isGet i = false) (b : Block) :
    responseColumn i b = none := by
  cases i with
  | setpoly _ | setstart _ | setend _ | setrevin _ | setrevout _ | reset | addb _ => rfl
  | getpoly | getstart | getend | getrevin | getrevout | getcrc => cases h

/-- Settles O24: a command appends its response column, which is empty for all but the six commands. -/
theorem responsesOfEveryCommand : Obligations.ResponsesOfEveryCommand := by
  intro i s
  obtain ⟨t, ht, -, hresp⟩ := exec_exists_next i s
  refine ⟨t, ht, fun hget => ?silent, ?_, ?_, ?_, ?_, ?_, ?_, fun hget => ?responders⟩
  case silent => simpa [responseColumn_eq_none hget] using hresp
  case responders =>
    cases i with
    | getpoly | getstart | getend | getrevin | getrevout | getcrc => simp
    | setpoly _ | setstart _ | setend _ | setrevin _ | setrevout _ | reset | addb _ => cases hget
  all_goals
    rintro rfl
    simpa only [responseColumn, zextBool_eq_ite, Option.toList_some] using hresp

/-! ## The interface table (R55) -/

/-- A stream at the port is the block's run of it, the responses of the run appended. -/
theorem execAll_eq_runBlock (cs : List Instr) (s : State) :
    execAll cs s =
      .next ⟨(runBlock cs s.block).1, s.pending, s.responses ++ (runBlock cs s.block).2⟩ := by
  induction cs generalizing s with
  | nil => simp [runBlock]
  | cons i cs ih =>
    rw [execAll_cons, exec_of_transition (Prod.mk.eta (p := transition i s.block)).symm, andThen_next, ih]
    simp [runBlock]

/-- The block's run of the `ADDB` stream of some bytes. -/
theorem runBlock_addExpansion (bs : List Byte) (b : Block) :
    runBlock (addExpansion bs) b = (b.setReg (fold b.cfg.poly b.cfg.revIn b.reg bs), []) := by
  induction bs generalizing b with
  | nil => rfl
  | cons v bs ih =>
    rw [addExpansion, List.map_cons, ← addExpansion, runBlock, ih]
    rfl

/-- Everything the host side of `add` can answer (R107). -/
theorem hostAdd_eq_ok {data : List Byte} {length : Int} {cs : List Instr} :
    hostAdd data length = .ok cs ↔
      (0 ≤ length ∧ length ≤ data.length) ∧ addExpansion (data.take length.toNat) = cs := by
  unfold hostAdd
  split <;> simp_all

theorem stepsWith_one (d : CrcConfig) (s : State) : stepsWith d 1 s = stepWith d s := by
  rw [stepsWith_succ]
  cases stepWith d s <;> rfl

/-- What stands for a call is the power-on reset, or a stream whose run by the block is the effect and
the output of the call. -/
theorem events_eq_ok {c : ApiCall} {evs : List HostEvent} (h : c.events = .ok evs) :
    c = .constructDefault ∧ evs = [.powerOnReset] ∨
      ∃ cs, evs = presented cs ∧
        ∀ d b, runBlock cs b = ((c.effect d b).1, (c.effect d b).2.toList) := by
  cases c with
  | constructDefault => cases h; exact .inl ⟨rfl, rfl⟩
  | getReverseInput | getReverseOutput =>
    cases h
    refine .inr ⟨_, rfl, fun d b => ?_⟩
    rw [ApiCall.effect, ← zextBool_eq_ite]
    rfl
  | add data length =>
    cases hadd : hostAdd data length with
    | error e => rw [ApiCall.events, hadd] at h; cases h
    | ok cs =>
      rw [ApiCall.events, hadd] at h
      cases h
      obtain ⟨-, rfl⟩ := hostAdd_eq_ok.mp hadd
      exact .inr ⟨_, rfl, fun d b => runBlock_addExpansion _ b⟩
  | construct _ _ _ _ _ | setPolynomial _ | setStartXor _ | setEndXor _ | setReverseInput _
  | setReverseOutput _ | getPolynomial | getStartXor | getEndXor | reset | getCRC =>
    cases h
    exact .inr ⟨_, rfl, fun d b => rfl⟩

/-- Settles O58: the events of a call are one power-on reset, or a stream that runs as the block runs it. -/
theorem interfaceTableRows : Obligations.InterfaceTableRows := by
  refine ⟨fun d c evs rest s hevs hs => ?_, fun c => ?_⟩
  · rcases events_eq_ok hevs with ⟨rfl, rfl⟩ | ⟨cs, rfl, hrun⟩
    · have hstep := stepWith_of_powerOnReset d (nextPresented_powerOnReset hs)
      exact ⟨_, (stepsWith_one d s).trans hstep, rfl, (List.append_nil _).symm, rfl⟩
    · refine ⟨⟨(c.effect d s.block).1, rest, s.responses ++ (c.effect d s.block).2.toList⟩,
        ?_, rfl, rfl, rfl⟩
      rw [presented, List.length_map, stepsWith_presented d cs hs, execAll_eq_runBlock]
      simp [hrun d]
  · cases c with
    | add data length =>
      by_cases hlen : 0 ≤ length ∧ length ≤ data.length
      · exact .inl ⟨_, by rw [ApiCall.events, hostAdd_eq_ok.mpr ⟨hlen, rfl⟩]; rfl⟩
      · exact .inr ⟨data, length, rfl, by omega⟩
    | _ => exact .inl ⟨_, rfl⟩

/-! ## The worked encodings (R66) -/

/-- A worked line holds both ways when it holds for the encoder. -/
theorem encode_and_decode {i : Instr} {w : CmdWord} (h : encode i = w) :
    encode i = w ∧ decode w = .ok i :=
  ⟨h, decode_eq_ok_iff.mpr h⟩

/-- Settles O1: each line by its encoding alone, the rejected words by running the decoder. -/
theorem workedEncodings : Obligations.WorkedEncodings := by
  refine ⟨encode_and_decode ?_, encode_and_decode ?_, encode_and_decode ?_, encode_and_decode ?_,
    encode_and_decode ?_, encode_and_decode ?_, encode_and_decode ?_, encode_and_decode ?_,
    encode_and_decode ?_, encode_and_decode ?_, encode_and_decode ?_, encode_and_decode ?_,
    encode_and_decode ?_, ?rejected, ?_⟩
  case rejected =>
    simp only [List.forall_mem_cons]
    refine ⟨?_, ?_, ?_, ?_, ?_, ?_, List.forall_mem_nil _⟩ <;> decide
  all_goals decide

/-! ## The step (R59, R62) -/

/-- Settles O4: the port names such a word as unassigned, and a run ends at the first refusal. -/
theorem unassignedWordRefused : Obligations.UnassignedWordRefused := by
  intro d s w rest k hs hw
  have hstep : stepWith d s = .refused (.unassignedWord w) := by
    cases hdec : decode w with
    | ok i => exact absurd hdec (hw i)
    | error e =>
      exact stepWith_of_unassigned d ((nextPresented_command hs).trans (presentWord_error hdec _))
  exact ⟨hstep, by rw [stepsWith_succ, hstep, andThen_refused]⟩

/-- The table word of 40 bits that a command's word numbers is that word. -/
theorem tableWord_toNat (w : CmdWord) : tableWord 40 w.toNat = w := by
  rw [tableWord, Nat.mod_eq_of_lt w.isLt, BitVec.ofNat_toNat, BitVec.setWidth_eq]

/-- Settles O5: the word presented next is a command's own word, and so is the one the host places. -/
theorem stepRunsDecodedCommand : Obligations.StepRunsDecodedCommand := by
  refine ⟨fun d s w rest i hs hdec => ?_, fun s i => ?_⟩
  · obtain rfl := decode_eq_ok_iff.mp hdec
    exact ⟨admits_argField i, stepWith_encode d hs⟩
  · rw [State.withFetchWord, tableWord_toNat]
    exact stepWith_encode Config.defaultCfg rfl

end Sys2Proof.Machine
end

section
/-! PROOFS. The rules the statements of spec/40_construction_config.md rest on: the words of the
configuration commands (R56, R58), a command that only writes and one that only responds (R91), what a
stream leaves of an element it does not write (R30), and a stream in which no element is written twice (R80). -/

namespace Sys2Proof.Machine

/-! ## Words outside the operand class (R58, R62) -/

theorem opField_toNat (w : CmdWord) : (opField w).toNat = w.toNat / 2 ^ 32 := by
  have hop : w.toNat / 2 ^ 32 < 2 ^ 8 := by omega
  rw [opField, BitVec.extractLsb'_toNat, Nat.shiftRight_eq_div_pow, Nat.mod_eq_of_lt hop]

theorem operandField_toNat (w : CmdWord) : (operandField w).toNat = w.toNat % 2 ^ 32 :=
  BitVec.extractLsb'_toNat 0 32 w

/-- A word with the opcode of a `BOOL` command and an operand field from 2 on is unassigned. -/
theorem decode_unassigned_of_bool {j : Instr} (hj : operandClass j = .bool) {w : CmdWord}
    (hlo : (opcode j).toNat * 2 ^ 32 + 2 ≤ w.toNat) (hhi : w.toNat < ((opcode j).toNat + 1) * 2 ^ 32) :
    decode w = .error (.unassigned w) := by
  have hop : opField w = opcode j := BitVec.eq_of_toNat_eq (by rw [opField_toNat]; omega)
  have hadm : ¬ OperandClass.bool.admits (operandField w) = true := by
    intro h
    have hlt := zextBool_toNat_lt (boolOperand (operandField w))
    rw [zextBool_boolOperand h, operandField_toNat] at hlt
    omega
  rw [decode_of_opField hop, hj, admitted, if_neg hadm]

/-- The words of the two `BOOL` commands, the operand written as a number. -/
theorem encode_setrevin (b : Bool) :
    encode (.setrevin b) = (0x07 : BitVec 8) ++ (if b then (1 : Word) else 0) := by
  rw [← zextBool_eq_ite]
  rfl

theorem encode_setrevout (b : Bool) :
    encode (.setrevout b) = (0x09 : BitVec 8) ++ (if b then (1 : Word) else 0) := by
  rw [← zextBool_eq_ite]
  rfl

/-! ## A command that writes, and one that responds (R91) -/

/-- A command with no response changes the block and nothing else of the machine. -/
theorem exec_of_write {i : Instr} {s : State} {c : Block} (h : transition i s.block = (c, none)) :
    exec i s = .next { s with block := c } := by
  rw [exec_of_transition h, Option.toList_none, List.append_nil]

/-- A command that keeps the block appends its response and changes nothing else of the machine. -/
theorem exec_of_read {i : Instr} {s : State} {r : Word} (h : transition i s.block = (s.block, some r)) :
    ∃ t, exec i s = .next t ∧ t.block = s.block ∧ t.pending = s.pending ∧
      t.responses = s.responses ++ [r] :=
  ⟨_, exec_of_transition h, rfl, rfl, rfl⟩

/-! ## What a stream leaves of an element (R30) -/

/-- Two blocks that hold the same in every element are the same block. -/
theorem Block.ext_get {b c : Block} (h : ∀ e, b.get e = c.get e) : b = c := by
  obtain ⟨⟨bp, bs, be, bi, bo⟩, br⟩ := b
  obtain ⟨⟨cp, cs, ce, ci, co⟩, cr⟩ := c
  obtain rfl : bp = cp := h .poly
  obtain rfl : bs = cs := h .startXor
  obtain rfl : be = ce := h .endXor
  obtain rfl : bi = ci := zextBool_inj.mp (h .revIn)
  obtain rfl : bo = co := zextBool_inj.mp (h .revOut)
  obtain rfl : br = cr := h .reg
  rfl

theorem runBlock_append_block (xs ys : List Instr) (b : Block) :
    (runBlock (xs ++ ys) b).1 = (runBlock ys (runBlock xs b).1).1 := by
  induction xs generalizing b with
  | nil => rfl
  | cons i xs ih => exact ih (transition i b).1

/-- The frame of a stream: an element none of its commands writes keeps its value. -/
theorem runBlock_get_of_notMem_writesOf {cs : List Instr} {e : Element}
    (h : ∀ i ∈ cs, e ∉ writesOf i) (b : Block) : (runBlock cs b).1.get e = b.get e := by
  induction cs generalizing b with
  | nil => rfl
  | cons i cs ih =>
    obtain ⟨hi, hcs⟩ := List.forall_mem_cons.mp h
    exact (ih hcs _).trans (transition_get_of_notMem_writesOf hi b)

/-- A stream of commands that are no `GET...` gives no response. -/
theorem runBlock_responses_eq_nil {cs : List Instr} (h : ∀ i ∈ cs, isGet i = false) (b : Block) :
    (runBlock cs b).2 = [] := by
  induction cs generalizing b with
  | nil => rfl
  | cons i cs ih =>
    obtain ⟨hi, hcs⟩ := List.forall_mem_cons.mp h
    rw [runBlock, transition_response, responseColumn_eq_none hi, ih hcs]
    rfl

theorem execAll_exists_next_frame {cs : List Instr} {e : Element} (h : ∀ i ∈ cs, e ∉ writesOf i) (s : State) :
    ∃ m, execAll cs s = .next m ∧ m.block.get e = s.block.get e :=
  ⟨_, execAll_eq_runBlock cs s, runBlock_get_of_notMem_writesOf h s.block⟩

/-- A command that responds with an element still responds with its old value after a stream that does not
write that element. -/
theorem exec_read_after_frame {g : Instr} {e : Element} (hg : ∀ b, responseColumn g b = some (b.get e))
    {cs : List Instr} (hcs : ∀ i ∈ cs, e ∉ writesOf i) (s : State) :
    ∃ m t, execAll cs s = .next m ∧ exec g m = .next t ∧
      t.responses = m.responses ++ [s.block.get e] := by
  obtain ⟨m, hm, hget⟩ := execAll_exists_next_frame hcs s
  obtain ⟨t, ht, -, hresp⟩ := exec_exists_next g m
  exact ⟨m, t, hm, ht, by rw [hresp, hg, hget, Option.toList_some]⟩

/-- `CFG.POLY` is written by `SETPOLY` only. -/
theorem poly_notMem_writesOf {i : Instr} (h : ∀ p, i ≠ .setpoly p) : .poly ∉ writesOf i := by
  cases i with
  | setpoly p => exact absurd rfl (h p)
  | _ => simp [writesOf]

/-- `CFG.END` is written by `SETEND` only. -/
theorem endXor_notMem_writesOf {i : Instr} (h : ∀ v, i ≠ .setend v) : .endXor ∉ writesOf i := by
  cases i with
  | setend v => exact absurd rfl (h v)
  | _ => simp [writesOf]

/-! ## Streams from two blocks that differ in one element -/

/-- The two blocks hold the same in every element but `e`. -/
def Block.AgreeOff (e : Element) (b c : Block) : Prop := ∀ x, x ≠ e → b.get x = c.get x

/-- A command that writes nothing on the strength of the one element keeps the agreement. -/
theorem Block.AgreeOff.transition {e : Element} {b c : Block} (h : b.AgreeOff e c) {i : Instr}
    (hi : e ∈ readsOf i → writesOf i = []) :
    (transition i b).1.AgreeOff e (transition i c).1 := by
  intro x hx
  by_cases hw : x ∈ writesOf i
  · have he : e ∉ readsOf i := fun hr => List.ne_nil_of_mem hw (hi hr)
    exact transition_get_congr (fun y hy => h y (ne_of_mem_of_not_mem hy he)) x hw
  · rw [transition_get_of_notMem_writesOf hw, transition_get_of_notMem_writesOf hw, h x hx]

theorem Block.AgreeOff.runBlock {e : Element} {b c : Block} (h : b.AgreeOff e c) {cs : List Instr}
    (hcs : ∀ i ∈ cs, e ∈ readsOf i → writesOf i = []) :
    (runBlock cs b).1.AgreeOff e (runBlock cs c).1 := by
  induction cs generalizing b c with
  | nil => exact h
  | cons i cs ih =>
    obtain ⟨hi, hrest⟩ := List.forall_mem_cons.mp hcs
    exact ih (h.transition hi) hrest

/-- Only `RESET` writes on the strength of `CFG.START`. -/
theorem writesOf_eq_nil_of_startXor_mem_readsOf {i : Instr} (hi : i ≠ .reset)
    (h : .startXor ∈ readsOf i) : writesOf i = [] := by
  cases i with
  | reset => exact absurd rfl hi
  | getstart => rfl
  | _ => simp [readsOf] at h

/-- The read-out of `REG` does not show `CFG.START`. -/
theorem Block.AgreeOff.finalize_eq {b c : Block} (h : b.AgreeOff .startXor c) :
    finalize b.reg b.cfg.revOut b.cfg.endXor = finalize c.reg c.cfg.revOut c.cfg.endXor := by
  have hreads : ∀ e ∈ readsOf .getcrc, b.get e = c.get e := fun e he =>
    h e (ne_of_mem_of_not_mem he (by decide))
  exact Option.some.inj (responseColumn_congr hreads)

/-! ## The polynomial and the start value (R81 to R84) -/

/-- Under the polynomial 0 the byte is shifted out whole, and `REG` only shifts. -/
theorem addbFn_zero_poly (ri : Bool) (r : Word) (b : Byte) : addbFn 0 ri r b = r <<< 8 := by
  have hout : zextByte (inputByte ri b) <<< (24 + 8) = 0 := BitVec.shiftLeft_eq_zero (Nat.le_refl 32)
  rw [addbFn, lfsrByte, lfsrShifts_zero_poly, mix, BitVec.shiftLeft_xor_distrib, ← BitVec.shiftLeft_add,
    hout]
  exact BitVec.xor_zero

/-- Settles O12: `SETPOLY` is one register write, and the `ADDB` after it runs on the block written. -/
theorem setPolyEffect : Obligations.SetPolyEffect := by
  intro p s
  refine ⟨rfl, _, exec_of_write rfl, rfl, fun e he => s.block.setPoly_get he p, rfl, rfl, ?same,
    fun b => ⟨_, exec_addb b _, rfl, ?zero⟩⟩
  case same => rintro rfl; rfl
  case zero => rintro rfl; exact addbFn_zero_poly _ _ b

/-- Settles O13: `GETPOLY` is one register read, and no command but `SETPOLY` writes the register. -/
theorem getPolyEffect : Obligations.GetPolyEffect :=
  ⟨rfl, fun _ => exec_of_read rfl, fun d _ hcs =>
    exec_read_after_frame (e := .poly) (fun _ => rfl) (fun i hi => poly_notMem_writesOf (hcs i hi))
      (State.powerOn d)⟩

/-- Settles O14: the blocks with and without the `SETSTART` agree off `CFG.START`, and every stream without
`RESET` keeps that. -/
theorem setStartEffect : Obligations.SetStartEffect := by
  intro v s
  have hframe : (s.block.setStart v).AgreeOff .startXor s.block := fun e he => s.block.setStart_get he v
  refine ⟨rfl, _, exec_of_write rfl, rfl, hframe, rfl, rfl, ⟨_, exec_of_write rfl, rfl⟩, fun cs hcs => ?_⟩
  have hagree := hframe.runBlock fun i hi => writesOf_eq_nil_of_startXor_mem_readsOf (hcs i hi)
  exact ⟨_, _, execAll_eq_runBlock cs _, execAll_eq_runBlock cs _, hagree .reg (by decide),
    hagree.finalize_eq⟩

/-- Settles O15: `GETSTART` is one register read, and the stream is run by the block alone. -/
theorem getStartEffect : Obligations.GetStartEffect :=
  ⟨rfl, fun _ => exec_of_read rfl, fun _ s => ⟨_, execAll_eq_runBlock _ s, rfl, rfl⟩⟩

/-! ## The read-out registers (R85, R86, R89, R90) -/

/-- Two read-outs of one `REG` differ by the difference of the end values. -/
theorem finalize_xor_finalize (r : Word) (ro : Bool) (e v : Word) :
    finalize r ro e ^^^ finalize r ro v = e ^^^ v := by
  unfold finalize
  generalize (if ro then rev32 r else r) = x
  calc x ^^^ e ^^^ (x ^^^ v)
    _ = x ^^^ x ^^^ (e ^^^ v) := by ac_rfl
    _ = e ^^^ v := by rw [BitVec.xor_self, BitVec.zero_xor]

/-- Settles O16: both `GETCRC` read the same `REG`, the second one under the new end value. -/
theorem setEndEffect : Obligations.SetEndEffect := by
  intro v s
  refine ⟨rfl, _, exec_of_write rfl, rfl, fun e he => s.block.setEnd_get he v, rfl, rfl,
    _, _, _, execAll_eq_runBlock _ s, rfl, finalize_xor_finalize _ _ _ v, rfl, ?_⟩
  rintro rfl
  exact BitVec.xor_zero

/-- Settles O17: `GETEND` is one register read, and no command but `SETEND` writes the register. -/
theorem getEndEffect : Obligations.GetEndEffect :=
  ⟨rfl, fun _ => exec_of_read rfl, fun d _ hcs =>
    exec_read_after_frame (e := .endXor) (fun _ => rfl) (fun i hi => endXor_notMem_writesOf (hcs i hi))
      (State.powerOn d)⟩

/-- Settles O20: `SETREVOUT` is one register write, and three read-outs of the same `REG` are run by the
block alone. -/
theorem setRevOutEffect : Obligations.SetRevOutEffect := by
  refine ⟨fun w hlo hhi => ?_, fun b s => ?_⟩
  · exact decode_unassigned_of_bool (j := .setrevout false) rfl hlo (Nat.lt_succ_of_le hhi)
  · exact ⟨encode_setrevout b, _, exec_of_write rfl, rfl, fun e he => s.block.setRevOut_get he b, rfl, rfl,
      _, execAll_eq_runBlock _ s, rfl, rfl⟩

/-- Settles O21: one register read, the bit as a number. -/
theorem getRevOutEffect : Obligations.GetRevOutEffect := by
  refine ⟨rfl, fun s => ?_⟩
  rw [← zextBool_eq_ite]
  exact exec_of_read rfl

/-! ## The input reversal (R87, R88) -/

/-- Settles O18: `SETREVIN` is one register write, and the `ADDB` after it runs on the block written. -/
theorem setRevInEffect : Obligations.SetRevInEffect := by
  refine ⟨fun w hlo hhi => ?_, fun b s => ?_⟩
  · exact decode_unassigned_of_bool (j := .setrevin false) rfl hlo (Nat.lt_succ_of_le hhi)
  · exact ⟨encode_setrevin b, _, exec_of_write rfl, rfl, fun e he => s.block.setRevIn_get he b, rfl, rfl,
      fun v => ⟨_, exec_addb v _, rfl⟩⟩

/-- Settles O19: one register read, the bit as a number. -/
theorem getRevInEffect : Obligations.GetRevInEffect := by
  refine ⟨rfl, fun s => ?_⟩
  rw [← zextBool_eq_ite]
  exact exec_of_read rfl

/-! ## Streams in which no element is written twice (R80) -/

/-- No command of the stream writes an element another one writes. -/
abbrev WritesOnce (cs : List Instr) : Prop := cs.Pairwise fun i j => (writesOf i).Disjoint (writesOf j)

/-- The order of the commands does not matter for it. -/
theorem WritesOnce.of_perm {cs l : List Instr} (hp : l.Perm cs) (h : WritesOnce cs) : WritesOnce l :=
  (hp.pairwise_iff fun hd => hd.symm).mpr h

/-- An element keeps to the end what its one command writes to it. -/
theorem WritesOnce.runBlock_get {xs ys : List Instr} {i : Instr} {e : Element}
    (h : WritesOnce (xs ++ i :: ys)) (he : e ∈ writesOf i) (b : Block) :
    (runBlock (xs ++ i :: ys) b).1.get e = (transition i (runBlock xs b).1).1.get e := by
  obtain ⟨-, hsuffix, -⟩ := List.pairwise_append.mp h
  obtain ⟨hys, -⟩ := List.pairwise_cons.mp hsuffix
  rw [runBlock_append_block]
  exact runBlock_get_of_notMem_writesOf (fun j hj hej => hys j hj he hej) _

/-- A command of the stream that writes a fixed value to an element sets it, wherever the command stands. -/
theorem WritesOnce.runBlock_get_of_mem {l : List Instr} (h : WritesOnce l) {i : Instr} (hi : i ∈ l)
    {e : Element} (he : e ∈ writesOf i) {x : Word} (hx : ∀ c, (transition i c).1.get e = x) (b : Block) :
    (runBlock l b).1.get e = x := by
  obtain ⟨xs, ys, rfl⟩ := List.append_of_mem hi
  rw [h.runBlock_get he, hx]

/-- The commands of `CONSTRUCT` write each element once and give no response. -/
theorem writesOnce_constructExpansion (p st e : Word) (ri ro : Bool) :
    WritesOnce (constructExpansion p st e ri ro) := by
  simp [WritesOnce, constructExpansion, writesOf]

theorem isGet_of_mem_constructExpansion {p st e : Word} {ri ro : Bool} {i : Instr}
    (hi : i ∈ constructExpansion p st e ri ro) : isGet i = false := by
  have hall : ∀ i ∈ constructExpansion p st e ri ro, isGet i = false := by
    simp [constructExpansion, isGet]
  exact hall i hi

/-- `CONSTRUCT` in any order writes the five configuration registers and gives no response; `REG` gets
what `CFG.START` holds where its `RESET` stands. -/
theorem execAll_of_perm_constructExpansion {p st e : Word} {ri ro : Bool} {xs ys : List Instr}
    (hp : (xs ++ .reset :: ys).Perm (constructExpansion p st e ri ro)) (s : State) :
    execAll (xs ++ .reset :: ys) s = .next { s with
      block := { cfg := ⟨p, st, e, ri, ro⟩, reg := (runBlock xs s.block).1.cfg.startXor } } := by
  have honce := (writesOnce_constructExpansion p st e ri ro).of_perm hp
  have hset (i : Instr) {x : Element} {v : Word} (hi : i ∈ constructExpansion p st e ri ro)
      (hx : x ∈ writesOf i) (hv : ∀ c, (transition i c).1.get x = v) :
      (runBlock (xs ++ .reset :: ys) s.block).1.get x = v :=
    honce.runBlock_get_of_mem (hp.mem_iff.mpr hi) hx hv s.block
  have hblock : (runBlock (xs ++ .reset :: ys) s.block).1 =
      { cfg := ⟨p, st, e, ri, ro⟩, reg := (runBlock xs s.block).1.cfg.startXor } := by
    apply Block.ext_get
    intro x
    cases x with
    | poly => exact hset (.setpoly p) (by simp [constructExpansion]) (.head _) fun _ => rfl
    | startXor => exact hset (.setstart st) (by simp [constructExpansion]) (.head _) fun _ => rfl
    | endXor => exact hset (.setend e) (by simp [constructExpansion]) (.head _) fun _ => rfl
    | revIn => exact hset (.setrevin ri) (by simp [constructExpansion]) (.head _) fun _ => rfl
    | revOut => exact hset (.setrevout ro) (by simp [constructExpansion]) (.head _) fun _ => rfl
    | reg => exact honce.runBlock_get (.head _) s.block
  have hresp : (runBlock (xs ++ .reset :: ys) s.block).2 = [] :=
    runBlock_responses_eq_nil (fun i hi => isGet_of_mem_constructExpansion (hp.mem_iff.mp hi)) _
  rw [execAll_eq_runBlock, hblock, hresp, List.append_nil]

/-- Of two commands in this order, the first stands before the second. -/
theorem exists_mem_before_of_sublist {i j : Instr} {l : List Instr} (h : [i, j].Sublist l) :
    ∃ xs ys, l = xs ++ j :: ys ∧ i ∈ xs := by
  obtain ⟨l₁, l₂, rfl, hi, hj⟩ := List.cons_sublist_iff.mp h
  obtain ⟨xs, ys, rfl⟩ := List.append_of_mem (List.singleton_sublist.mp hj)
  exact ⟨l₁ ++ xs, ys, (List.append_assoc ..).symm, List.mem_append_left xs hi⟩

/-- Of two commands in this order, the second stands after the first. -/
theorem exists_mem_after_of_sublist {i j : Instr} {l : List Instr} (h : [i, j].Sublist l) :
    ∃ xs ys, l = xs ++ i :: ys ∧ j ∈ ys := by
  obtain ⟨l₁, l₂, rfl, hi, hj⟩ := List.cons_sublist_iff.mp h
  obtain ⟨xs, ys, rfl⟩ := List.append_of_mem hi
  exact ⟨xs, ys ++ l₂, List.append_assoc .., List.mem_append_right ys (List.singleton_sublist.mp hj)⟩

/-- Settles O22: in every order the registers get their values, and `REG` gets what `CFG.START` holds at
the `RESET`: the new value when `SETSTART` stands before it, the old one when it stands after it. -/
theorem constructNetEffect : Obligations.ConstructNetEffect := by
  intro p st e ri ro
  have honce {l : List Instr} (hp : l.Perm (constructExpansion p st e ri ro)) : WritesOnce l :=
    (writesOnce_constructExpansion p st e ri ro).of_perm hp
  refine ⟨rfl, ?words, fun s l hp => ⟨fun hsub => ?resetAfter, fun hsub => ?resetBefore⟩⟩
  case words =>
    simp only [constructExpansion, List.map_cons, List.map_nil, encode_setrevin, encode_setrevout]
    rfl
  case resetAfter =>
    obtain ⟨xs, ys, rfl, hmem⟩ := exists_mem_before_of_sublist hsub
    have hxs : WritesOnce xs := (honce hp).sublist (List.sublist_append_left xs _)
    have hstart : (runBlock xs s.block).1.cfg.startXor = st :=
      hxs.runBlock_get_of_mem hmem (e := .startXor) (.head _) (fun _ => rfl) s.block
    rw [execAll_of_perm_constructExpansion hp, hstart]
  case resetBefore =>
    obtain ⟨xs, ys, rfl, hmem⟩ := exists_mem_after_of_sublist hsub
    obtain ⟨-, -, hcross⟩ := List.pairwise_append.mp (honce hp)
    have hxs : ∀ i ∈ xs, .startXor ∉ writesOf i := fun i hi hw =>
      hcross i hi _ (.tail _ hmem) hw (.head _)
    have hstart : (runBlock xs s.block).1.cfg.startXor = s.block.cfg.startXor :=
      runBlock_get_of_notMem_writesOf hxs s.block
    rw [execAll_of_perm_constructExpansion hp, hstart]

end Sys2Proof.Machine
end

section
/-! PROOFS. The rules the statements of spec/41_reset_add.md rest on: the shift network as a linear map
(R102 to R104, R110), the remainder it computes over GF(2) (R109), and what `RESET`, `ADDB` and `ADD` do. -/

namespace Sys2Proof.Machine

/-! ## One shift and one byte (R102 to R104) -/

/-- The byte's shifts are the only sequence with the recurrence of R103. -/
theorem lfsrShifts_eq_of_recurrence {r p : Word} {f : Nat → Word} {n : Nat} (hzero : f 0 = r)
    (hsucc : ∀ i < n, f (i + 1) = lfsrBit (f i) p) : lfsrShifts p r n = f n := by
  induction n with
  | zero => exact hzero.symm
  | succ n ih =>
    rw [lfsrShifts, ih fun i hi => hsucc i (Nat.lt_succ_of_lt hi), hsucc n (Nat.lt_succ_self n)]

/-- Each bit of a shifted value: the bit below it, and the polynomial's bit where bit 31 stood. -/
theorem lfsrBit_getLsbD (r p : Word) {i : Nat} (hi : i < 32) :
    (lfsrBit r p).getLsbD i =
      ((decide (1 ≤ i) && r.getLsbD (i - 1)) ^^ (r.getLsbD 31 && p.getLsbD i)) := by
  have hshift : (r <<< 1).getLsbD i = (decide (1 ≤ i) && r.getLsbD (i - 1)) := by
    rw [BitVec.getLsbD_shiftLeft, decide_eq_true hi, Bool.true_and, ← decide_not,
      decide_eq_decide.mpr Nat.not_lt]
  unfold lfsrBit
  split
  next htop => rw [BitVec.getLsbD_xor, hshift, htop, Bool.true_and]
  next htop => rw [hshift, eq_false_of_ne_true htop, Bool.false_and, Bool.xor_false]

/-- The mix changes bits 31:24 by the byte. -/
theorem mix_extractLsb'_high (r : Word) (t : Byte) :
    (mix r t).extractLsb' 24 8 = r.extractLsb' 24 8 ^^^ t := by
  apply BitVec.eq_of_getLsbD_eq
  intro i hi
  simp [hi, mix_getLsbD_high r t hi]

/-- The mix keeps bits 23:0. -/
theorem mix_extractLsb'_low (r : Word) (t : Byte) :
    (mix r t).extractLsb' 0 24 = r.extractLsb' 0 24 := by
  apply BitVec.eq_of_getLsbD_eq
  intro i hi
  simp [hi, mix_getLsbD_low r t hi]

/-- Settles O28: the mix by its two bit ranges, one shift by its bits, and a byte's shifts by induction on
their number. -/
theorem shiftNetworkBits : Obligations.ShiftNetworkBits := by
  refine ⟨fun r t => ⟨rfl, mix_extractLsb'_high r t, mix_extractLsb'_low r t⟩,
    fun r p => ⟨rfl, ?_, fun i hlo hhi => ?_⟩, fun r p f => lfsrShifts_eq_of_recurrence⟩
  · exact (lfsrBit_getLsbD r p (by decide)).trans (Bool.false_xor _)
  · rw [lfsrBit_getLsbD r p (by omega), decide_eq_true hlo, Bool.true_and]

/-! ## Linearity (R110) -/

theorem lfsrBit_xor (a b p : Word) : lfsrBit (a ^^^ b) p = lfsrBit a p ^^^ lfsrBit b p := by
  apply BitVec.eq_of_getLsbD_eq
  intro i hi
  simp only [BitVec.getLsbD_xor, lfsrBit_getLsbD _ _ hi, Bool.and_xor_distrib_left,
    Bool.and_xor_distrib_right, Bool.xor_assoc, Bool.xor_left_comm]

theorem lfsrShifts_xor (p a b : Word) (k : Nat) :
    lfsrShifts p (a ^^^ b) k = lfsrShifts p a k ^^^ lfsrShifts p b k := by
  induction k with
  | zero => rfl
  | succ k ih => rw [lfsrShifts, ih, lfsrBit_xor, lfsrShifts, lfsrShifts]

theorem xor_xor_xor_comm {n : Nat} (a b c d : BitVec n) :
    a ^^^ b ^^^ (c ^^^ d) = a ^^^ c ^^^ (b ^^^ d) := by
  ac_rfl

theorem mix_xor (r₁ r₂ : Word) (t₁ t₂ : Byte) :
    mix (r₁ ^^^ r₂) (t₁ ^^^ t₂) = mix r₁ t₁ ^^^ mix r₂ t₂ := by
  rw [mix, zextByte, BitVec.setWidth_xor, BitVec.shiftLeft_xor_distrib, xor_xor_xor_comm]
  rfl

theorem rev_xor {n : Nat} (a b : BitVec n) : rev (a ^^^ b) = rev a ^^^ rev b := by
  apply BitVec.eq_of_getLsbD_eq
  intro i _
  simp only [rev_getLsbD, BitVec.getLsbD_xor, Bool.and_xor_distrib_left]

theorem inputByte_xor (ri : Bool) (a b : Byte) :
    inputByte ri (a ^^^ b) = inputByte ri a ^^^ inputByte ri b := by
  cases ri with
  | false => rfl
  | true => exact rev_xor a b

@[simp] theorem inputByte_zero (ri : Bool) : inputByte ri 0 = 0 := by
  cases ri <;> decide

@[simp] theorem mix_zero (r : Word) : mix r 0 = r := BitVec.xor_zero

theorem mix_zero_reg (t : Byte) : mix 0 t = zextByte t <<< 24 := BitVec.zero_xor

theorem addbFn_xor (p r₁ r₂ : Word) (ri : Bool) (b₁ b₂ : Byte) :
    addbFn p ri (r₁ ^^^ r₂) (b₁ ^^^ b₂) = addbFn p ri r₁ b₁ ^^^ addbFn p ri r₂ b₂ := by
  rw [addbFn, inputByte_xor, mix_xor, lfsrByte, lfsrShifts_xor]
  rfl

/-- The old register's part of the accumulate step. -/
theorem addbFn_zero_byte (p r : Word) (ri : Bool) : addbFn p ri r 0 = lfsrByte r p := by
  rw [addbFn, inputByte_zero, mix_zero]

/-- Settles O37: each part of the step is linear, so the step is, and it separates at register 0 and byte
0. At the polynomial 1 taken twice the two values cancel, while under their xor 0 the register 1 is only
shifted. -/
theorem accumulateIsLinear : Obligations.AccumulateIsLinear := by
  refine ⟨lfsrBit_xor, mix_xor, rev_xor, addbFn_xor, fun p r ri b => ?_, 1, 1, 1, false, 0, by decide⟩
  calc addbFn p ri r b
    _ = addbFn p ri (r ^^^ 0) (0 ^^^ b) := congrArg₂ _ BitVec.xor_zero.symm BitVec.zero_xor.symm
    _ = lfsrByte r p ^^^ addbFn p ri 0 b := by rw [addbFn_xor, addbFn_zero_byte]

/-! ## Shifts that meet no top bit (R112) -/

/-- While the top bits of the value are 0 the network is a plain shift, whatever the polynomial. -/
theorem lfsrShifts_eq_shiftLeft {p r : Word} {k : Nat} (htop : ∀ j < k, r.getLsbD (31 - j) = false) :
    lfsrShifts p r k = r <<< k := by
  induction k with
  | zero => exact (BitVec.shiftLeft_zero r).symm
  | succ k ih =>
    have hbit : (r <<< k).getLsbD 31 = false := by
      rw [BitVec.getLsbD_shiftLeft, htop k (Nat.lt_succ_self k), Bool.and_false]
    rw [lfsrShifts, ih fun j hj => htop j (Nat.lt_succ_of_lt hj), lfsrBit, hbit, if_neg Bool.false_ne_true,
      BitVec.shiftLeft_add]

theorem lfsrByte_eq_shiftLeft {r : Word} (htop : r.extractLsb' 24 8 = 0) (p : Word) :
    lfsrByte r p = r <<< 8 := by
  refine lfsrShifts_eq_shiftLeft fun j hj => ?_
  have hbit := congrArg (·.getLsbD (7 - j)) htop
  have hlt : 7 - j < 8 := by omega
  have hadd : 24 + (7 - j) = 31 - j := by omega
  simpa [hlt, hadd] using hbit

/-- What is mixed into bits 31:24 is gone after eight shifts. -/
theorem mix_shiftLeft (r : Word) (t : Byte) : mix r t <<< 8 = r <<< 8 :=
  (lfsrShifts_zero_poly (mix r t) 8).symm.trans (addbFn_zero_poly false r t)

/-- Mixing in what already stands in bits 31:24 clears them, and the eight shifts after it are plain. -/
theorem lfsrByte_mix_top (p r : Word) : lfsrByte (mix r (r.extractLsb' 24 8)) p = r <<< 8 := by
  have htop : (mix r (r.extractLsb' 24 8)).extractLsb' 24 8 = 0 :=
    (mix_extractLsb'_high r _).trans BitVec.xor_self
  rw [lfsrByte_eq_shiftLeft htop, mix_shiftLeft]

/-- Settles O38: the value mixed is bits 23:0 alone, which only shift, and bits 31:24 xor the byte. -/
theorem tableFormOfAccumulate : Obligations.TableFormOfAccumulate := by
  intro p r ri b
  have hin : inputByte ri b =
      r.extractLsb' 24 8 ^^^ (r.extractLsb' 24 8 ^^^ inputByte ri b) := by
    rw [← BitVec.xor_assoc, BitVec.xor_self, BitVec.zero_xor]
  calc lfsrByte (mix r (inputByte ri b)) p
    _ = lfsrByte (mix (r ^^^ 0)
          (r.extractLsb' 24 8 ^^^ (r.extractLsb' 24 8 ^^^ inputByte ri b))) p :=
      congrArg (lfsrByte · p) (congrArg₂ mix BitVec.xor_zero.symm hin)
    _ = lfsrByte (mix r (r.extractLsb' 24 8)) p ^^^
          lfsrByte (mix 0 (r.extractLsb' 24 8 ^^^ inputByte ri b)) p := by
      rw [mix_xor]
      exact lfsrShifts_xor p _ _ 8
    _ = r <<< 8 ^^^ lfsrByte (zextByte (r.extractLsb' 24 8 ^^^ inputByte ri b) <<< 24) p := by
      rw [lfsrByte_mix_top, mix_zero_reg]

/-! ## Values as polynomials over GF(2) (R109) -/

section
open Polynomial

/-- A power of `x` or nothing, by its coefficients. -/
theorem coeff_ite_X_pow (c : Bool) (k i : Nat) :
    (if c then X ^ k else 0 : (ZMod 2)[X]).coeff i = if i = k then (if c then 1 else 0) else 0 := by
  cases c <;> simp [coeff_X_pow]

/-- Bit `i` of a value is the coefficient of `x^i`. -/
theorem gf2_coeff {n : Nat} (v : BitVec n) (i : Nat) :
    (gf2 v).coeff i = if v.getLsbD i then 1 else 0 := by
  rw [gf2, finsetSum_coeff, Finset.sum_congr rfl fun j _ => coeff_ite_X_pow _ j i, Finset.sum_ite_eq]
  by_cases hi : i < n
  · rw [if_pos (Finset.mem_range.mpr hi)]
  · rw [if_neg (mt Finset.mem_range.mp hi), BitVec.getLsbD_of_ge v i (Nat.le_of_not_lt hi)]
    rfl

/-- Xor of values is addition of their polynomials. -/
theorem gf2_xor {n : Nat} (a b : BitVec n) : gf2 (a ^^^ b) = gf2 a + gf2 b := by
  ext i
  rw [coeff_add, gf2_coeff, gf2_coeff, gf2_coeff, BitVec.getLsbD_xor]
  cases a.getLsbD i <;> cases b.getLsbD i <;> decide

theorem degree_gf2_lt {n : Nat} (v : BitVec n) : (gf2 v).degree < n := by
  rw [degree_lt_iff_coeff_zero]
  intro i hi
  rw [gf2_coeff, BitVec.getLsbD_of_ge v i hi]
  rfl

theorem generator_monic (p : Word) : (generator p).Monic := monic_X_pow_add (degree_gf2_lt p)

theorem degree_generator (p : Word) : (generator p).degree = 32 := by
  have hlt : (gf2 p).degree < (X ^ 32 : (ZMod 2)[X]).degree := by
    rw [degree_X_pow]
    exact degree_gf2_lt p
  rw [generator, degree_add_eq_left_of_degree_lt hlt, degree_X_pow]
  rfl

/-- A 32-bit value congruent to a polynomial modulo `G` is its remainder: it has a smaller degree. -/
theorem gf2_eq_modByMonic {p v : Word} {f : (ZMod 2)[X]}
    (h : AdjoinRoot.mk (generator p) (gf2 v) = AdjoinRoot.mk (generator p) f) :
    gf2 v = f %ₘ generator p := by
  have hself : gf2 v %ₘ generator p = gf2 v := by
    rw [modByMonic_eq_self_iff (generator_monic p), degree_generator]
    exact degree_gf2_lt v
  rw [← hself]
  exact modByMonic_eq_of_dvd_sub (generator_monic p) (AdjoinRoot.mk_eq_mk.mp h)

/-- A shift by one multiplies by `x`, but for the bit it loses. -/
theorem gf2_shiftLeft_one (r : Word) :
    X * gf2 r = gf2 (r <<< 1) + if r.getLsbD 31 then X ^ 32 else 0 := by
  ext i
  rw [coeff_add, gf2_coeff, BitVec.getLsbD_shiftLeft, coeff_ite_X_pow]
  cases i with
  | zero => simp
  | succ i =>
    rw [coeff_X_mul, gf2_coeff]
    rcases Nat.lt_trichotomy i 31 with hi | rfl | hi
    · have hlt : i + 1 < 32 := by omega
      simp [hlt, hi.ne]
    · simp
    · simp [BitVec.getLsbD_of_ge r i hi, hi.ne']

/-- One shift of the LFSR multiplies by `x` and, where the top bit was 1, subtracts the generator. -/
theorem X_mul_gf2 (r p : Word) :
    X * gf2 r = gf2 (lfsrBit r p) + if r.getLsbD 31 then generator p else 0 := by
  rw [gf2_shiftLeft_one, lfsrBit]
  split
  · rw [gf2_xor, generator, add_assoc, add_left_comm (gf2 p), CharTwo.add_self_eq_zero, add_zero]
  · rfl

/-- `k` shifts multiply by `x^k` modulo the generator. -/
theorem mk_gf2_lfsrShifts (p r : Word) (k : Nat) :
    AdjoinRoot.mk (generator p) (gf2 (lfsrShifts p r k)) =
      AdjoinRoot.mk (generator p) (X ^ k * gf2 r) := by
  induction k with
  | zero => rw [lfsrShifts, pow_zero, one_mul]
  | succ k ih =>
    have hcarry : AdjoinRoot.mk (generator p)
        (if (lfsrShifts p r k).getLsbD 31 then generator p else 0) = 0 := by
      split
      · exact AdjoinRoot.mk_self
      · exact map_zero _
    calc AdjoinRoot.mk (generator p) (gf2 (lfsrShifts p r (k + 1)))
      _ = AdjoinRoot.mk (generator p) (X * gf2 (lfsrShifts p r k)) := by
        rw [X_mul_gf2 _ p, map_add, hcarry, add_zero, lfsrShifts]
      _ = AdjoinRoot.mk (generator p) (X ^ (k + 1) * gf2 r) := by
        rw [map_mul, ih, ← map_mul, ← mul_assoc, pow_succ']

/-- The mix adds the byte at `x^24`. -/
theorem gf2_mix (r : Word) (t : Byte) : gf2 (mix r t) = gf2 r + X ^ 24 * gf2 t := by
  have hbyte : gf2 (zextByte t <<< 24) = X ^ 24 * gf2 t := by
    ext i
    rw [gf2_coeff, BitVec.getLsbD_shiftLeft, coeff_X_pow_mul', gf2_coeff, zextByte,
      BitVec.getLsbD_setWidth]
    by_cases hlo : 24 ≤ i
    · by_cases hhi : i < 32
      · have hlt : i - 24 < 32 := by omega
        simp [hlo, hhi, hlt]
      · simp [hlo, hhi, BitVec.getLsbD_of_ge t (i - 24) (by omega)]
    · simp [hlo]
  rw [mix, gf2_xor, hbyte]

/-- A byte multiplies the register by `x^8` and adds the byte, which the mix put at `x^24`, at `x^32`. -/
theorem mk_gf2_addbFn (p r : Word) (ri : Bool) (b : Byte) :
    AdjoinRoot.mk (generator p) (gf2 (addbFn p ri r b)) =
      AdjoinRoot.mk (generator p) (X ^ 8 * gf2 r + X ^ 32 * gf2 (inputByte ri b)) := by
  rw [addbFn, lfsrByte, mk_gf2_lfsrShifts, gf2_mix]
  congr 1
  ring

/-- Each byte of the message multiplies what is in the register by `x^8`. -/
theorem mk_gf2_fold (p r : Word) (ri : Bool) (bs : List Byte) :
    AdjoinRoot.mk (generator p) (gf2 (fold p ri r bs)) =
      AdjoinRoot.mk (generator p)
        (X ^ (8 * bs.length) * gf2 r + X ^ 32 * messagePoly (bs.map (inputByte ri))) := by
  induction bs generalizing r with
  | nil => simp [fold, messagePoly]
  | cons b bs ih =>
    have hpoly : X ^ (8 * bs.length) * (X ^ 8 * gf2 r + X ^ 32 * gf2 (inputByte ri b)) +
        X ^ 32 * messagePoly (bs.map (inputByte ri)) =
        X ^ (8 * (b :: bs).length) * gf2 r + X ^ 32 * messagePoly ((b :: bs).map (inputByte ri)) := by
      rw [List.map_cons, messagePoly, List.length_cons, List.length_map]
      ring
    rw [fold, ih, map_add, map_mul, mk_gf2_addbFn, ← map_mul, ← map_add, hpoly]

/-- Settles O39: each step is a congruence modulo the generator, and a value of 32 bits is reduced. -/
theorem regIsPolynomialRemainder : Obligations.RegIsPolynomialRemainder := by
  refine ⟨fun r p => gf2_eq_modByMonic ?_, fun r p => gf2_eq_modByMonic (mk_gf2_lfsrShifts p r 8),
    fun p r ri b => gf2_eq_modByMonic (mk_gf2_addbFn p r ri b),
    fun p s ri bs => gf2_eq_modByMonic (mk_gf2_fold p s ri bs)⟩
  rw [← pow_one X]
  exact mk_gf2_lfsrShifts p r 1

end

/-! ## `ADDB` and `ADD` (R101, R105 to R108) -/

theorem encode_addb (b : Byte) : encode (.addb b) = (0x0C : BitVec 8) ++ (0 : BitVec 24) ++ b := by
  have hb : (zextByte b).toNat = b.toNat := BitVec.toNat_setWidth_of_le (by decide)
  have hop : (0x0C : BitVec 8).toNat <<< 32 = ((0x0C : BitVec 8) ++ (0 : BitVec 24)).toNat <<< 8 := by
    decide
  apply BitVec.eq_of_toNat_eq
  rw [encode, commandWord, argField, opcode, BitVec.toNat_append, BitVec.toNat_append, hb, hop]

/-- A word with the opcode of `ADDB` and an operand field wider than a byte is unassigned. -/
theorem decode_unassigned_of_byte {w : CmdWord} (hop : w.extractLsb' 32 8 = 0x0C)
    (harg : w.extractLsb' 8 24 ≠ 0) : decode w = .error (.unassigned w) := by
  have hfield : (operandField w).extractLsb' 8 24 = w.extractLsb' 8 24 := by
    apply BitVec.eq_of_getLsbD_eq
    intro i hi
    simp [operandField, hi]
  have hdec := decode_of_opField (j := .addb 0) hop
  rw [operandClass, admitted_byte, hfield, if_neg harg] at hdec
  exact hdec

/-- A byte that meets itself in bits 31:24 leaves a plain shift, whatever the polynomial. -/
theorem addbFn_eq_shiftLeft {r : Word} {ri : Bool} {b : Byte} (h : r.extractLsb' 24 8 = inputByte ri b)
    (p : Word) : addbFn p ri r b = r <<< 8 := by
  rw [addbFn, ← h, lfsrByte_mix_top]

/-- The byte whose bit reaches the top at the eighth shift brings in the polynomial, unshifted. -/
theorem addbFn_eq_poly {ri : Bool} {b : Byte} (hb : inputByte ri b = 1) (p : Word) :
    addbFn p ri 0 b = p := by
  have hmix : mix 0 1 = 0x01000000 := by decide
  have hseven : lfsrShifts p 0x01000000 7 = 0x80000000 := lfsrShifts_eq_shiftLeft (by decide)
  rw [addbFn, hb, hmix, lfsrByte, lfsrShifts, hseven]
  exact BitVec.zero_xor

/-- Settles O30: the word and the register write, then the corner cases of R101: (b) and (d) by a byte
that meets itself, (c) by its one top bit, (e) under the polynomial 0, (g) by the byte entering.
(`addbEffect` itself names the block's step.) -/
theorem addbEffect_holds : Obligations.AddbEffect := by
  refine ⟨fun b s => ⟨encode_addb b, fun w => decode_unassigned_of_byte, _, exec_addb b s, rfl, rfl,
    fun e he => s.block.setReg_get he _, rfl, rfl⟩, fun p ri => ?caseB, fun p => ?caseC,
    fun p r ri b h => addbFn_eq_shiftLeft h p, fun r ri b => ?caseE, fun p r b hb => ?caseG⟩
  case caseB => exact addbFn_eq_shiftLeft (r := 0) (inputByte_zero ri).symm p
  case caseC => exact ⟨addbFn_eq_poly (by decide) p, addbFn_eq_poly (by decide) p⟩
  case caseE => exact ⟨lfsrShifts_zero_poly _ 8, addbFn_zero_poly ri r b⟩
  case caseG => exact congrArg (fun t => lfsrByte (mix r t) p) hb

/-- Settles O33: the words one by one, and the effect of the stream of `ADDB` in one register write. -/
theorem addIsFoldOfBytes : Obligations.AddIsFoldOfBytes := by
  refine ⟨fun bs => ⟨rfl, ?words⟩, fun p r ri => ⟨rfl, fun b rest => rfl⟩,
    fun bs s => ⟨_, execAll_addExpansion bs s, rfl, rfl, rfl, rfl⟩,
    fun xs ys => List.map_append, fun s => ⟨rfl, execAll_nil s⟩⟩
  case words =>
    rw [addExpansion, List.map_map]
    exact List.map_congr_left fun b _ => encode_addb b

/-- Settles O32: each `ADDB` runs on the block the commands before it left. -/
theorem addbReadsLiveConfiguration : Obligations.AddbReadsLiveConfiguration := by
  refine ⟨fun a b q s => ⟨_, execAll_eq_runBlock _ s, rfl⟩,
    fun xs ys q rv s => ⟨_, execAll_eq_runBlock _ s, ?_⟩⟩
  rw [runBlock_append_block, runBlock_append_block, runBlock_addExpansion, runBlock_addExpansion]
  rfl

/-- Settles O57: within the range of the buffer the stream is one `ADDB` per byte taken, outside it the
call is refused. -/
theorem hostAddSendsOrRefuses : Obligations.HostAddSendsOrRefuses := by
  refine fun data length => ⟨fun hlo hhi => ?_, fun hout => if_neg (by omega)⟩
  have hlen : (addExpansion (data.take length.toNat)).length = length.toNat := by
    rw [addExpansion, List.length_map, List.length_take]
    omega
  refine ⟨_, hostAdd_eq_ok.mpr ⟨⟨hlo, hhi⟩, rfl⟩, by omega, fun k hk => ?_⟩
  rw [addExpansion, List.getElem?_map, List.getElem?_take_of_lt (hlen ▸ hk)]

/-! ## `RESET` (R100) -/

/-- Every command but `ADDB` and `SETSTART` keeps `REG` at the start value. -/
theorem transition_keeps_reg_eq_start {i : Instr} (hadd : ∀ b, i ≠ .addb b)
    (hstart : ∀ v, i ≠ .setstart v) {b : Block} (h : b.reg = b.cfg.startXor) :
    (transition i b).1.reg = (transition i b).1.cfg.startXor := by
  cases i with
  | addb v => exact absurd rfl (hadd v)
  | setstart v => exact absurd rfl (hstart v)
  | reset => rfl
  | setpoly _ | setend _ | setrevin _ | setrevout _ => exact h
  | getpoly | getstart | getend | getrevin | getrevout | getcrc => exact h

theorem runBlock_keeps_reg_eq_start {cs : List Instr}
    (hcs : ∀ i ∈ cs, (∀ b, i ≠ .addb b) ∧ ∀ v, i ≠ .setstart v) {b : Block} (h : b.reg = b.cfg.startXor) :
    (runBlock cs b).1.reg = (runBlock cs b).1.cfg.startXor := by
  induction cs generalizing b with
  | nil => exact h
  | cons i cs ih =>
    obtain ⟨⟨hadd, hstart⟩, hrest⟩ := List.forall_mem_cons.mp hcs
    exact ih hrest (transition_keeps_reg_eq_start hadd hstart h)

/-- `RESET` changes nothing where `REG` holds the start value. -/
theorem exec_reset_of_reg_eq_start {s : State} (h : s.block.reg = s.block.cfg.startXor) :
    exec .reset s = .next s := by
  have hblock : transition .reset s.block = (s.block, none) := by
    rw [transition, resetEffect_eq, ← h]
    rfl
  exact exec_of_write hblock

/-- Settles O31: `RESET` is one register write with the start value, and until an `ADDB` or a `SETSTART`
`REG` stays the start value. -/
theorem softResetEffect : Obligations.SoftResetEffect := by
  refine ⟨rfl, fun s => ⟨_, exec_of_write rfl, rfl, rfl, rfl, rfl⟩, fun cs s hcs => ?again,
    fun s s' hcfg => ⟨_, _, exec_of_write rfl, exec_of_write rfl, ?noTrace⟩,
    fun s => ⟨_, execAll_eq_runBlock _ s, rfl⟩⟩
  case again =>
    have hreg := runBlock_keeps_reg_eq_start hcs (b := (transition .reset s.block).1) rfl
    exact ⟨_, execAll_eq_runBlock _ s, exec_reset_of_reg_eq_start hreg⟩
  case noTrace => exact congrArg Block.powerOn hcfg

end Sys2Proof.Machine
end

section
/-! PROOFS. The rules the statements of spec/42_getcrc.md rest on: the read-out transform and its inverse
(R121), what `GETCRC` reads (R120, R122), and the `REG` a message leaves for it (R123, R125). -/

namespace Sys2Proof.Machine

/-! ## The read-out transform (R121) -/

/-- Reversing twice gives the value back (R133). -/
theorem rev_involutive {n : Nat} : Function.Involutive (rev (n := n)) := fun v => by
  rw [rev_eq_reverse, rev_eq_reverse, BitVec.reverse_reverse_eq]

/-- The reversal at the output, made or left out as `CFG.REVOUT` says, is its own inverse. -/
theorem ite_rev32_involutive (ro : Bool) : Function.Involutive fun r => if ro then rev32 r else r := by
  cases ro with
  | false => exact fun _ => rfl
  | true => exact rev_involutive

theorem xor_involutive (e : Word) : Function.Involutive (· ^^^ e) := fun r => by
  change r ^^^ e ^^^ e = r
  rw [BitVec.xor_assoc, BitVec.xor_self, BitVec.xor_zero]

/-- The transform is two involutions one after the other: the reversal, then the XOR. -/
theorem finalize_bijective (ro : Bool) (e : Word) : Function.Bijective fun r => finalize r ro e :=
  (xor_involutive e).bijective.comp (ite_rev32_involutive ro).bijective

/-- Undoing the XOR leaves the reversal alone. -/
theorem finalize_xor_end (r : Word) (ro : Bool) (e : Word) :
    finalize r ro e ^^^ e = if ro then rev32 r else r :=
  xor_involutive e _

/-- Settles O43: the XOR and the reversal are each their own inverse, undone in opposite order. -/
theorem finalizeInvertible : Obligations.FinalizeInvertible := by
  refine ⟨fun _ _ _ => rfl, fun e ro => finalize_bijective ro e, fun r e ro => ?_⟩
  rw [finalize_xor_end]
  exact (ite_rev32_involutive ro r).symm

/-! ## `GETCRC` (R120) -/

theorem finalize_of_palindrome {r : Word} (h : rev32 r = r) (ro : Bool) (e : Word) :
    finalize r ro e = r ^^^ e := by
  rw [finalize, h, ite_self]

/-- `GETCRC` appends the read-out and changes nothing else of the machine. -/
theorem exec_getcrc (s : State) :
    exec .getcrc s = .next { s with
      responses := s.responses ++ [finalize s.block.reg s.block.cfg.revOut s.block.cfg.endXor] } :=
  exec_of_transition rfl

/-- Settles O44: `GETCRC` is one read; the corner cases are the read-out of the start value, of a `REG`
under the identity, and of a palindrome. -/
theorem getCrcEffect : Obligations.GetCrcEffect := by
  refine ⟨rfl, fun s => exec_of_read rfl, fun s => ⟨_, _, execAll_eq_runBlock _ s, rfl, rfl, ?allOnes⟩,
    fun s hro he => ⟨_, exec_getcrc s, ?identity⟩, fun d => ⟨_, exec_getcrc _, rfl⟩, fun r e h => ?palindrome⟩
  case allOnes =>
    intro hstart hend
    have hones : rev32 0xFFFFFFFF = 0xFFFFFFFF := by decide
    change finalize s.block.cfg.startXor s.block.cfg.revOut s.block.cfg.endXor = 0
    rw [hstart, hend, finalize_of_palindrome hones, BitVec.xor_self]
    rfl
  case identity =>
    have hreg : finalize s.block.reg false 0 = s.block.reg := BitVec.xor_zero
    rw [hro, he, hreg]
  case palindrome => rw [finalize_of_palindrome h, finalize_of_palindrome h]

/-! ## Two reads with other commands between them (R122) -/

/-- The elements `GETCRC` reads are written by `ADDB`, `RESET`, `SETEND` and `SETREVOUT` only. -/
theorem getcrc_reads_notMem_writesOf {i : Instr} (hadd : ∀ b, i ≠ .addb b) (hreset : i ≠ .reset)
    (hend : ∀ v, i ≠ .setend v) (hrevOut : ∀ b, i ≠ .setrevout b) :
    ∀ e ∈ readsOf .getcrc, e ∉ writesOf i := by
  cases i with
  | addb b => exact absurd rfl (hadd b)
  | reset => exact absurd rfl hreset
  | setend v => exact absurd rfl (hend v)
  | setrevout b => exact absurd rfl (hrevOut b)
  | setpoly _ | setstart _ | setrevin _ => simp [readsOf, writesOf]
  | getpoly | getstart | getend | getrevin | getrevout | getcrc => simp [writesOf]

/-- A stream that writes nothing a command reads leaves that command's response as it was. -/
theorem responseColumn_runBlock {i : Instr} {cs : List Instr}
    (h : ∀ j ∈ cs, ∀ e ∈ readsOf i, e ∉ writesOf j) (b : Block) :
    responseColumn i (runBlock cs b).1 = responseColumn i b :=
  responseColumn_congr fun e he => runBlock_get_of_notMem_writesOf (fun j hj => h j hj e he) b

/-- Settles O46: the commands between write nothing `GETCRC` reads; a `SETEND` between shows in the second
response, as from a `REG` and an end value of 0 with `v = 1`. -/
theorem getCrcIdempotent : Obligations.GetCrcIdempotent := by
  refine ⟨fun cs s hcs => ?between, fun s s' hreg hrevOut hend => ?sameReads,
    1, State.reset, _, _, _, execAll_eq_runBlock _ _, rfl, by decide⟩
  case between =>
    have hframe : ∀ i ∈ cs, ∀ e ∈ readsOf .getcrc, e ∉ writesOf i := fun i hi => by
      obtain ⟨hadd, hreset, hend, hrevOut⟩ := hcs i hi
      exact getcrc_reads_notMem_writesOf hadd hreset hend hrevOut
    have hcolumn : responseColumn .getcrc (runBlock cs s.block).1 = responseColumn .getcrc s.block :=
      responseColumn_runBlock hframe s.block
    rw [execAll_append, execAll_cons, exec_getcrc, andThen_next, execAll_eq_runBlock, andThen_next]
    exact ⟨_, _, _, execAll_eq_runBlock _ _, congrArg (_ ++ ·.toList) hcolumn⟩
  case sameReads =>
    refine ⟨_, _, _, exec_getcrc s, exec_getcrc s', rfl, ?_⟩
    rw [hreg, hrevOut, hend]

/-! ## Reading a message (R123, R125) -/

/-- `RESET` and the bytes of a message leave `REG` at their fold from the start value, and nothing else
changed (R105). -/
theorem execAll_reset_addExpansion (bs : List Byte) (s : State) :
    execAll (.reset :: addExpansion bs) s = .next { s with
      block := s.block.setReg (fold s.block.cfg.poly s.block.cfg.revIn s.block.cfg.startXor bs) } := by
  have hreset : exec .reset s = .next { s with block := s.block.setReg s.block.cfg.startXor } :=
    exec_of_write rfl
  rw [execAll_cons, hreset, andThen_next, execAll_addExpansion]
  rfl

/-- Settles O45: after the message the two `SET` commands change what `GETCRC` reads, and not `REG`. -/
theorem getCrcReadsLiveConfiguration : Obligations.GetCrcReadsLiveConfiguration := by
  intro e ro bs s
  rw [execAll_append, execAll_reset_addExpansion, andThen_next]
  exact ⟨_, execAll_eq_runBlock _ _, rfl, rfl⟩

/-- Settles O47: the first `GETCRC` leaves `REG` at the fold of the bytes so far, and the bytes after it
are folded from there. -/
theorem midStreamReadIsChecksumSoFar : Obligations.MidStreamReadIsChecksumSoFar := by
  intro xs ys s
  rw [execAll_append, execAll_append, execAll_reset_addExpansion, andThen_next, execAll_cons, exec_getcrc,
    andThen_next, execAll_addExpansion, andThen_next]
  refine ⟨_, execAll_eq_runBlock _ _, ?_⟩
  rw [crc, crc, fold_append]
  exact List.append_assoc s.responses [_] [_]

end Sys2Proof.Machine
end

section
/-! PROOFS. The rules the statements of spec/43_bit_reversal_unit.md rest on: the mirror image of a bit
position and the number of 1 bits (R130), and the reversal of the constant values and of a concatenation
(R134). -/

namespace Sys2Proof.Machine

/-! ## Bits under the reversal (R130) -/

/-- The guard of `rev_getLsbD` holds inside the width. -/
theorem rev_getLsbD_of_lt {n : Nat} (v : BitVec n) {i : Nat} (hi : i < n) :
    (rev v).getLsbD i = v.getLsbD (n - 1 - i) := by
  rw [rev_getLsbD, decide_eq_true hi, Bool.true_and]

/-- The bits set are counted by a sum over the positions, and reflecting the positions keeps the sum. -/
theorem card_ones_rev {n : Nat} (v : BitVec n) :
    ((Finset.range n).filter fun i => (rev v).getLsbD i = true).card =
      ((Finset.range n).filter fun i => v.getLsbD i = true).card := by
  rw [Finset.card_filter, Finset.card_filter]
  calc ∑ i ∈ Finset.range n, (if (rev v).getLsbD i = true then 1 else 0)
      = ∑ i ∈ Finset.range n, (if v.getLsbD (n - 1 - i) = true then 1 else 0) :=
        Finset.sum_congr rfl fun i hi => by rw [rev_getLsbD_of_lt v (Finset.mem_range.1 hi)]
    _ = ∑ i ∈ Finset.range n, (if v.getLsbD i = true then 1 else 0) :=
        Finset.sum_range_reflect (fun i => if v.getLsbD i = true then 1 else 0) n

/-- Settles O40: the bit law at any width, its instances at 8 and 32, and the reflected count. -/
theorem bitReversalPermutesBits : Obligations.BitReversalPermutesBits :=
  ⟨fun _ v _ hi hn => rev_getLsbD_of_lt v (Nat.lt_of_le_pred hn hi), fun _ v => card_ones_rev v,
    fun v _ hi => rev_getLsbD_of_lt v (Nat.lt_succ_of_le hi),
    fun v _ hi => rev_getLsbD_of_lt v (Nat.lt_succ_of_le hi)⟩

/-! ## The inverse (R133) -/

/-- Settles O41: `rev_involutive` at every width, and an involution is a bijection. -/
theorem bitReversalInvolution : Obligations.BitReversalInvolution :=
  ⟨fun _ => rev_involutive, rev_involutive, rev_involutive, rev_involutive.bijective,
    rev_involutive.bijective⟩

/-! ## Constants, concatenations and shifts (R134) -/

@[simp] theorem rev_zero (n : Nat) : rev (0#n) = 0#n := by
  rw [rev_eq_reverse, BitVec.reverse_eq_zero_iff]

@[simp] theorem rev_allOnes (n : Nat) : rev (BitVec.allOnes n) = BitVec.allOnes n := by
  apply BitVec.eq_of_getLsbD_eq
  intro i hi
  have hmirror : n - 1 - i < n := by omega
  rw [rev_getLsbD_of_lt _ hi, BitVec.getLsbD_allOnes, BitVec.getLsbD_allOnes, decide_eq_true hmirror,
    decide_eq_true hi]

/-- The parts of a concatenation are reversed and change places. -/
theorem rev_append {m n : Nat} (x : BitVec m) (y : BitVec n) :
    rev (x ++ y) = (rev y ++ rev x).cast (Nat.add_comm n m) := by
  rw [rev_eq_reverse, rev_eq_reverse, rev_eq_reverse, BitVec.reverse_append]

/-- The bytes of a word are reversed and stand in opposite order. -/
theorem rev32_bytes (b3 b2 b1 b0 : Byte) :
    rev32 (b3 ++ b2 ++ b1 ++ b0) = rev8 b0 ++ rev8 b1 ++ rev8 b2 ++ rev8 b3 :=
  calc rev (b3 ++ b2 ++ b1 ++ b0)
      = rev b0 ++ (rev b1 ++ (rev b2 ++ rev b3)) := by
        rw [rev_append, rev_append, rev_append]
        rfl
    _ = rev b0 ++ rev b1 ++ rev b2 ++ rev b3 := by
        rw [BitVec.append_assoc, BitVec.append_assoc]
        rfl

/-- A byte shifted to the top of a word is the byte followed by 24 zeros. -/
theorem setWidth_shiftLeft_24 (t : Byte) : t.setWidth 32 <<< 24 = t ++ 0#24 := by
  have hbyte : (t.setWidth 32).extractLsb' 0 8 = t := by
    rw [BitVec.extractLsb'_setWidth_of_le (by decide), BitVec.extractLsb'_eq_self]
  rw [BitVec.shiftLeft_eq_concat_of_lt (by decide)]
  exact congrArg (· ++ 0#24) hbyte

theorem rev32_byte_at_top (t : Byte) : rev32 (t.setWidth 32 <<< 24) = (rev8 t).setWidth 32 := by
  rw [setWidth_shiftLeft_24, BitVec.setWidth_eq_append (by decide)]
  change rev (t ++ 0#24) = 0#24 ++ rev t
  rw [rev_append, rev_zero]
  rfl

/-- Settles O42: the reversal moves bits without changing them, and takes a concatenation apart from the
other end. -/
theorem bitReversalLinearAndByBytes : Obligations.BitReversalLinearAndByBytes :=
  ⟨fun _ => rev_xor, fun n => ⟨rev_zero n, rev_allOnes n⟩, rev32_bytes, rev32_byte_at_top⟩

end Sys2Proof.Machine
end

section
/-! PROOFS. The rules the statements of spec/44_properties.md rest on: the two halves of the construction, and
a message read out (R149 to R151), what a stream leaves of a register it sets (R145), and the commands a
stream can lose without its `REG` or its responses changing (R148, R152, R153). -/

namespace Sys2Proof.Machine

/-! ## A message, and its read-out (R149, R151) -/

/-- The bytes of a message and the read-out after them: `REG` is folded, the one response is the read-out
of the fold, and nothing else of the machine changes. -/
theorem execAll_addExpansion_getcrc (bs : List Byte) (s : State) :
    execAll (addExpansion bs ++ [.getcrc]) s = .next
      { block := s.block.setReg (fold s.block.cfg.poly s.block.cfg.revIn s.block.reg bs)
        pending := s.pending
        responses := s.responses ++ [finalize (fold s.block.cfg.poly s.block.cfg.revIn s.block.reg bs)
          s.block.cfg.revOut s.block.cfg.endXor] } := by
  rw [execAll_append, execAll_addExpansion, andThen_next, execAll_cons, exec_getcrc, andThen_next]
  rfl

/-- Settles O50: the `RESET` puts `CFG.START` into `REG` whatever stood there, so the fold begins at it. -/
theorem resetRestartsMessage : Obligations.ResetRestartsMessage := by
  have hmessage (bs : List Byte) (s : State) :
      ∃ t, execAll (.reset :: addExpansion bs ++ [.getcrc]) s = .next t ∧
        t.responses = s.responses ++ [crc s.block.cfg bs] := by
    rw [execAll_append, execAll_reset_addExpansion, andThen_next]
    exact ⟨_, execAll_eq_runBlock _ _, rfl⟩
  refine ⟨hmessage, fun bs cs s => ?_⟩
  obtain ⟨m, hm, -⟩ := execAll_exists_next cs s
  obtain ⟨t, ht, hresp⟩ := hmessage bs m
  exact ⟨m, t, hm, ht, hresp⟩

/-! ## Construction (R80, R150) -/

/-- The `SET...` commands of `CONSTRUCT` (R80). -/
def constructionSetters (p st e : Word) (ri ro : Bool) : List Instr :=
  [.setpoly p, .setstart st, .setend e, .setrevin ri, .setrevout ro]

theorem constructExpansion_eq_setters_append (p st e : Word) (ri ro : Bool) :
    constructExpansion p st e ri ro = constructionSetters p st e ri ro ++ [.reset] := rfl

/-- The setters write the whole configuration and keep `REG`. -/
theorem execAll_constructionSetters (p st e : Word) (ri ro : Bool) (s : State) :
    execAll (constructionSetters p st e ri ro) s =
      .next { s with block := { cfg := ⟨p, st, e, ri, ro⟩, reg := s.block.reg } } := by
  have hsilent : ∀ i ∈ constructionSetters p st e ri ro, isGet i = false := by
    simp [constructionSetters, isGet]
  rw [execAll_eq_runBlock, runBlock_responses_eq_nil hsilent, List.append_nil]
  rfl

/-- `CONSTRUCT` writes the whole block: no value it held before is left. -/
theorem execAll_constructExpansion (p st e : Word) (ri ro : Bool) (s : State) :
    execAll (constructExpansion p st e ri ro) s =
      .next { s with block := { cfg := ⟨p, st, e, ri, ro⟩, reg := st } } := by
  rw [constructExpansion_eq_setters_append, execAll_append, execAll_constructionSetters, andThen_next]
  exact execAll_reset_addExpansion [] _

/-- `CONSTRUCT`, a message and its read-out, in any state: the one response is the checksum. -/
theorem execAll_construct_message (p st e : Word) (ri ro : Bool) (bs : List Byte) (s : State) :
    execAll (constructExpansion p st e ri ro ++ addExpansion bs ++ [.getcrc]) s = .next
      { block := { cfg := ⟨p, st, e, ri, ro⟩, reg := fold p ri st bs }
        pending := s.pending
        responses := s.responses ++ [crc ⟨p, st, e, ri, ro⟩ bs] } := by
  rw [List.append_assoc, execAll_append, execAll_constructExpansion, andThen_next,
    execAll_addExpansion_getcrc]
  rfl

theorem length_construct_message (p st e : Word) (ri ro : Bool) (bs : List Byte) :
    (constructExpansion p st e ri ro ++ addExpansion bs ++ [Instr.getcrc]).length = bs.length + 7 := by
  simp [constructExpansion, addExpansion]

/-- Settles O49: the words of the stream run it, and its run does not depend on the block it began from. -/
theorem checksumFromAnyState : Obligations.ChecksumFromAnyState := by
  intro d p st e ri ro bs s rest hs
  have hrun := stepsWith_presented d _ hs
  rw [length_construct_message, execAll_construct_message] at hrun
  exact ⟨_, hrun, rfl, rfl, rfl, rfl⟩

/-- A power-on reset and the words of a stream at the port run the stream from the power-on block. -/
theorem stepsWith_powerOn_presented (d : CrcConfig) (cs : List Instr) {rest : List HostEvent} {s : State}
    (h : s.pending = .powerOnReset :: presented cs ++ rest) :
    stepsWith d (cs.length + 1) s =
      execAll cs { block := Block.powerOn d, pending := rest, responses := s.responses } := by
  rw [stepsWith_succ, stepWith_of_powerOnReset d (nextPresented_powerOnReset h), andThen_next]
  exact stepsWith_presented d cs rfl

/-- Settles O51: with the `RESET` the setters are `CONSTRUCT` from the power-on block; without it `REG` is
still the start value of the device, as with 0 against 1 under the polynomial 0. -/
theorem constructionEquivalence : Obligations.ConstructionEquivalence := by
  refine ⟨fun d p st e ri ro bs s rest => ⟨fun hs => ?withReset, fun hs => ?withoutReset⟩,
    ⟨0, 0, 0, false, false⟩, 0, 1, 0, false, false, [0x31], by decide⟩
  case withReset =>
    have hrun := stepsWith_powerOn_presented d
      (constructExpansion p st e ri ro ++ addExpansion bs ++ [.getcrc]) hs
    rw [length_construct_message, execAll_construct_message] at hrun
    exact ⟨_, hrun, rfl⟩
  case withoutReset =>
    have hrun := stepsWith_powerOn_presented d
      (constructionSetters p st e ri ro ++ addExpansion bs ++ [.getcrc]) hs
    have hlen : (constructionSetters p st e ri ro ++ addExpansion bs ++ [Instr.getcrc]).length =
        bs.length + 6 := by simp [constructionSetters, addExpansion]
    rw [hlen, List.append_assoc, execAll_append, execAll_constructionSetters, andThen_next,
      execAll_addExpansion_getcrc] at hrun
    exact ⟨_, hrun, rfl⟩

/-! ## What a `SET` command writes its `GET` command returns (R145) -/

/-- A command that responds with an element responds with the value last written to it, whatever other
commands ran since. -/
theorem exec_read_after_write {g i : Instr} {e : Element} {v : Word}
    (hg : ∀ b, responseColumn g b = some (b.get e)) (hi : ∀ b, (transition i b).1.get e = v)
    {cs : List Instr} (hcs : ∀ j ∈ cs, e ∉ writesOf j) (s : State) :
    ∃ m t, execAll (i :: cs) s = .next m ∧ exec g m = .next t ∧ t.responses = m.responses ++ [v] := by
  obtain ⟨w, hw, hblock, -⟩ := exec_exists_next i s
  have hvalue : w.block.get e = v := hblock ▸ hi s.block
  rw [execAll_cons, hw, andThen_next, ← hvalue]
  exact exec_read_after_frame hg hcs w

/-- `CFG.START` is written by `SETSTART` only. -/
theorem startXor_notMem_writesOf {i : Instr} (h : ∀ v, i ≠ .setstart v) : .startXor ∉ writesOf i := by
  cases i with
  | setstart v => exact absurd rfl (h v)
  | _ => simp [writesOf]

/-- `CFG.REVIN` is written by `SETREVIN` only. -/
theorem revIn_notMem_writesOf {i : Instr} (h : ∀ v, i ≠ .setrevin v) : .revIn ∉ writesOf i := by
  cases i with
  | setrevin v => exact absurd rfl (h v)
  | _ => simp [writesOf]

/-- `CFG.REVOUT` is written by `SETREVOUT` only. -/
theorem revOut_notMem_writesOf {i : Instr} (h : ∀ v, i ≠ .setrevout v) : .revOut ∉ writesOf i := by
  cases i with
  | setrevout v => exact absurd rfl (h v)
  | _ => simp [writesOf]

theorem exists_writesOf_eq_singleton {i : Instr} (h : isGet i = false) : ∃ e, writesOf i = [e] := by
  cases i with
  | setpoly _ | setstart _ | setend _ | setrevin _ | setrevout _ | reset | addb _ => exact ⟨_, rfl⟩
  | getpoly | getstart | getend | getrevin | getrevout | getcrc => cases h

theorem exists_readsOf_eq_singleton {g : Instr} (h : isGet g = true) (hcrc : g ≠ .getcrc) :
    ∃ e, readsOf g = [e] := by
  cases g with
  | getcrc => exact absurd rfl hcrc
  | getpoly | getstart | getend | getrevin | getrevout => exact ⟨_, rfl⟩
  | setpoly _ | setstart _ | setend _ | setrevin _ | setrevout _ | reset | addb _ => cases h

/-- A command that writes nothing another one reads leaves the other's response as it was. -/
theorem responseColumn_transition {i g : Instr} (h : ∀ e ∈ readsOf g, e ∉ writesOf i) (b : Block) :
    responseColumn g (transition i b).1 = responseColumn g b :=
  responseColumn_congr fun e he => transition_get_of_notMem_writesOf (h e he) b

theorem exists_responseColumn_of_isGet {g : Instr} (h : isGet g = true) (b : Block) :
    ∃ r, responseColumn g b = some r := by
  obtain ⟨r, hr⟩ := transition_of_isGet h b
  exact ⟨r, by rw [← transition_response, hr]⟩

/-- Settles O27: each register is written by its one `SET` command, so nothing between changes it; and one
register's command writes nothing that another's `GET` command reads. -/
theorem configRoundTrip : Obligations.ConfigRoundTrip := by
  refine ⟨fun v cs s hcs => ?poly, fun v cs s hcs => ?start, fun v cs s hcs => ?ending,
    fun v cs s hcs => ?revIn, fun v cs s hcs => ?revOut, fun i g s _ _ hset hget hcrc hne => ?others⟩
  case poly =>
    exact exec_read_after_write (e := .poly) (fun _ => rfl) (fun _ => rfl)
      (fun i hi => poly_notMem_writesOf (hcs i hi)) s
  case start =>
    exact exec_read_after_write (e := .startXor) (fun _ => rfl) (fun _ => rfl)
      (fun i hi => startXor_notMem_writesOf (hcs i hi)) s
  case ending =>
    exact exec_read_after_write (e := .endXor) (fun _ => rfl) (fun _ => rfl)
      (fun i hi => endXor_notMem_writesOf (hcs i hi)) s
  case revIn =>
    rw [← zextBool_eq_ite]
    exact exec_read_after_write (e := .revIn) (fun _ => rfl) (fun _ => rfl)
      (fun i hi => revIn_notMem_writesOf (hcs i hi)) s
  case revOut =>
    rw [← zextBool_eq_ite]
    exact exec_read_after_write (e := .revOut) (fun _ => rfl) (fun _ => rfl)
      (fun i hi => revOut_notMem_writesOf (hcs i hi)) s
  case others =>
    obtain ⟨x, hx⟩ := exists_writesOf_eq_singleton hset
    obtain ⟨e, he⟩ := exists_readsOf_eq_singleton hget hcrc
    have hdisjoint : ∀ e ∈ readsOf g, e ∉ writesOf i := by
      rw [hx, he] at hne ⊢
      simpa [eq_comm] using hne
    obtain ⟨r, hr⟩ := exists_responseColumn_of_isGet hget s.block
    obtain ⟨t, ht, hblock, -⟩ := exec_exists_next i s
    obtain ⟨u, hu, -, hafter⟩ := exec_exists_next g t
    obtain ⟨v, hv, -, hbefore⟩ := exec_exists_next g s
    rw [hblock, responseColumn_transition hdisjoint, hr] at hafter
    rw [hr] at hbefore
    exact ⟨t, u, v, r, ht, hu, hv, hafter, hbefore⟩

/-! ## Reads and pieces of a message (R148, R152) -/

/-- Settles O26: at the `GET` command the two runs stand at the same block, and it answers that block, so
they differ in its response only. -/
theorem readsCanBeDeleted : Obligations.ReadsCanBeDeleted := by
  intro xs ys g s hg
  obtain ⟨r, hr⟩ := transition_of_isGet hg (runBlock xs s.block).1
  rw [execAll_append, execAll_append, execAll_eq_runBlock xs, andThen_next, andThen_next, execAll_cons,
    exec_of_transition hr, andThen_next]
  exact ⟨_, _, _, _, r, _, rfl, rfl, execAll_eq_runBlock ys _, execAll_eq_runBlock ys _, rfl, rfl, rfl,
    List.append_assoc _ [r] _⟩

/-- Under an undisturbed polynomial and input reversal `REG` is the fold of the bytes, whatever else stands
between them. -/
theorem runBlock_reg_of_undisturbed {cs : List Instr} (h : ∀ i ∈ cs, undisturbed i = true) (b : Block) :
    (runBlock cs b).1.reg = fold b.cfg.poly b.cfg.revIn b.reg (streamBytes cs) := by
  induction cs generalizing b with
  | nil => rfl
  | cons i cs ih =>
    obtain ⟨hi, hcs⟩ := List.forall_mem_cons.mp h
    cases i with
    | setpoly _ | setrevin _ | reset => cases hi
    | _ => exact ih hcs _

/-- Reads between the bytes leave the block as the bytes alone do. -/
theorem runBlock_block_of_reads_and_bytes {cs : List Instr}
    (h : ∀ i ∈ cs, isGet i = true ∨ ∃ b, i = .addb b) (b : Block) :
    (runBlock cs b).1 = (runBlock (addExpansion (streamBytes cs)) b).1 := by
  induction cs generalizing b with
  | nil => rfl
  | cons i cs ih =>
    obtain ⟨hi, hcs⟩ := List.forall_mem_cons.mp h
    cases i with
    | setpoly _ | setstart _ | setend _ | setrevin _ | setrevout _ | reset => simp [isGet] at hi
    | _ => exact ih hcs _

/-- Settles O34: the fold and the expansion are those of an append, and the two runs of a message leave the
same `REG`, or the same block. -/
theorem incrementalEquivalence : Obligations.IncrementalEquivalence := by
  refine ⟨fun p r ri => fold_append p ri r, fun xs ys => List.map_append.symm,
    fun cs s h => ⟨_, execAll_eq_runBlock cs s, runBlock_reg_of_undisturbed h s.block⟩, fun cs s h => ?_⟩
  refine ⟨_, _, _, _, _, execAll_eq_runBlock cs s, exec_getcrc _, execAll_eq_runBlock _ s, exec_getcrc _,
    rfl, ?_⟩
  rw [runBlock_block_of_reads_and_bytes h]

/-! ## `REG` and the read-out configuration (R153) -/

/-- The two blocks hold the same in every element of `es`. -/
def Block.AgreeOn (es : List Element) (b c : Block) : Prop := ∀ e ∈ es, b.get e = c.get e

/-- A command keeps the agreement when it writes an element of `es` on the strength of such elements only. -/
theorem Block.AgreeOn.transition {es : List Element} {b c : Block} (h : b.AgreeOn es c) {i : Instr}
    (hi : ∀ e ∈ es, e ∈ writesOf i → readsOf i ⊆ es) :
    (transition i b).1.AgreeOn es (transition i c).1 := by
  intro e he
  by_cases hw : e ∈ writesOf i
  · exact transition_get_congr (fun x hx => h x (hi e he hw hx)) e hw
  · rw [transition_get_of_notMem_writesOf hw, transition_get_of_notMem_writesOf hw, h e he]

/-- A stream can lose the commands that write no element of `es`, and still ends in agreement on `es`. -/
theorem Block.AgreeOn.runBlock_filter {es : List Element} {keep : Instr → Bool}
    (hclosed : ∀ i, ∀ e ∈ es, e ∈ writesOf i → readsOf i ⊆ es)
    (hkeep : ∀ i, keep i = false → ∀ e ∈ es, e ∉ writesOf i) (cs : List Instr) {b c : Block}
    (h : b.AgreeOn es c) : (runBlock cs b).1.AgreeOn es (runBlock (cs.filter keep) c).1 := by
  induction cs generalizing b c with
  | nil => exact h
  | cons i cs ih =>
    cases hi : keep i with
    | true =>
      rw [List.filter_cons_of_pos hi]
      exact ih (h.transition (hclosed i))
    | false =>
      rw [List.filter_cons_of_neg (by simp [hi])]
      exact ih fun e he => (transition_get_of_notMem_writesOf (hkeep i hi e he) b).trans (h e he)

/-- The elements that decide `REG`: all but the two of the read-out. -/
def accumulatorElements : List Element := [.poly, .startXor, .revIn, .reg]

theorem readsOf_subset_accumulatorElements (i : Instr) :
    ∀ e ∈ accumulatorElements, e ∈ writesOf i → readsOf i ⊆ accumulatorElements := by
  cases i <;> simp [accumulatorElements, writesOf, readsOf]

/-- Settles O48: `SETEND` and `SETREVOUT` write none of the elements that decide `REG`, and what `GETCRC`
reads is a clause of O46. -/
theorem regIgnoresReadOutConfiguration : Obligations.RegIgnoresReadOutConfiguration := by
  obtain ⟨-, hsameReads, -⟩ := getCrcIdempotent
  refine ⟨fun cs s s' hpoly hstart hrevIn hreg => ?_, hsameReads⟩
  have hagree : s.block.AgreeOn accumulatorElements s'.block := by
    simp [Block.AgreeOn, accumulatorElements, Block.get, hpoly, hstart, hrevIn, hreg]
  refine ⟨_, _, execAll_eq_runBlock cs s, execAll_eq_runBlock _ s',
    hagree.runBlock_filter readsOf_subset_accumulatorElements (fun i hi => ?_) cs .reg
      (by simp [accumulatorElements])⟩
  cases i with
  | setend _ | setrevout _ => simp [accumulatorElements, writesOf]
  | _ => cases hi

/-! ## The known vectors (R146) -/

/-- The words are the values of `REG` after each of the bytes, from `r` on (R101). -/
def isTrace (p : Word) (ri : Bool) : Word → List Byte → List Word → Bool
  | _, [], [] => true
  | r, b :: bs, r' :: rs => addbFn p ri r b == r' && isTrace p ri r' bs rs
  | _, [], _ :: _ => false
  | _, _ :: _, [] => false

theorem fold_of_isTrace {p : Word} {ri : Bool} {r : Word} {bs : List Byte} {rs : List Word}
    (h : isTrace p ri r bs rs = true) : fold p ri r bs = rs.getLastD r := by
  induction bs generalizing r rs with
  | nil =>
    cases rs with
    | nil => rfl
    | cons _ _ => cases h
  | cons b bs ih =>
    cases rs with
    | nil => cases h
    | cons r' rs =>
      obtain ⟨hb, hrest⟩ := Bool.and_eq_true_iff.mp h
      rw [fold, eq_of_beq hb, ih hrest, List.getLastD_cons]

/-- Settles O53, along the values of `REG` after each byte (spec/95_test_vectors.md, the traces T1 to T6;
S5 has the trace of S2). -/
theorem knownVectors : Obligations.KnownVectors := by
  unfold Obligations.KnownVectors
  intro bs
  have hS1 : fold 0x04C11DB7 true 0xFFFFFFFF bs = 0x9B63D02C :=
    fold_of_isTrace (rs := [0x1208C43E, 0x4CDD350D, 0xB439EDEE, 0x3AF83826, 0xC7A3502C, 0x7934B16F,
      0x06693FF5, 0x0AA4F8A6, 0x9B63D02C]) (by decide)
  have hS2 : fold 0x04C11DB7 false 0xFFFFFFFF bs = 0x0376E6E7 :=
    fold_of_isTrace (rs := [0x9EFBCF93, 0x3FEC5E6A, 0xD952F164, 0xA695C4AA, 0xBD9AB747, 0xD8F06C8F,
      0x0D8A14C4, 0x49E3C2FB, 0x0376E6E7]) (by decide)
  have hS3 : fold 0x1EDC6F41 true 0xFFFFFFFF bs = 0x3EB69F38 :=
    fold_of_isTrace (rs := [0x386650F6, 0xF9DC5531, 0xB20B21F7, 0x88D0A390, 0x533B74E7, 0x9E71537D,
      0xA816BDB7, 0xA6FE1EF9, 0x3EB69F38]) (by decide)
  have hS4 : fold 0xA833982B true 0xFFFFFFFF bs = 0x9155731E :=
    fold_of_isTrace (rs := [0x20474726, 0xEB6F4C6C, 0x5B337A72, 0xB45802F7, 0x236FDDCD, 0xAF1079CF,
      0x391B22BC, 0xD709020F, 0x9155731E]) (by decide)
  have hS6 : fold 0x04C11DB7 false 0x00000000 bs = 0x89A1897F :=
    fold_of_isTrace (rs := [0xD0F37027, 0x3F5B3A17, 0x6E368C64, 0x619119D1, 0xFA8A0CDB, 0xE28AD0FD,
      0x8C8EDD82, 0x20E779A2, 0x89A1897F]) (by decide)
  exact ⟨(congrArg (finalize · true 0xFFFFFFFF) hS1).trans (by decide),
    (congrArg (finalize · false 0xFFFFFFFF) hS2).trans (by decide),
    (congrArg (finalize · true 0xFFFFFFFF) hS3).trans (by decide),
    (congrArg (finalize · true 0xFFFFFFFF) hS4).trans (by decide),
    (congrArg (finalize · false 0x00000000) hS2).trans (by decide),
    (congrArg (finalize · false 0xFFFFFFFF) hS6).trans (by decide)⟩

end Sys2Proof.Machine
end

section
/-! PROOFS. The statement of spec/60_exceptions.md: every command completes, and there is nothing to raise
(R165). -/

namespace Sys2Proof.Machine

/-- Everything a step can answer: a next state, or the refusal of the unassigned word presented next
(R62, R165). -/
theorem stepWith_next_or_refused (d : CrcConfig) (s : State) :
    (∃ t, stepWith d s = .next t) ∨
      ∃ w rest, s.pending = .command w :: rest ∧ (∀ i, decode w ≠ .ok i) ∧
        stepWith d s = .refused (.unassignedWord w) := by
  match hs : s.pending with
  | [] => exact .inl ⟨s, stepWith_of_nothing d (nextPresented_nil hs)⟩
  | .powerOnReset :: rest =>
    exact .inl ⟨_, stepWith_of_powerOnReset d (nextPresented_powerOnReset hs)⟩
  | .command w :: rest =>
    by_cases hw : ∀ i, decode w ≠ .ok i
    · obtain ⟨hstep, -⟩ := unassignedWordRefused d s w rest 0 hs hw
      exact .inr ⟨w, rest, rfl, hw, hstep⟩
    · obtain ⟨i, hi⟩ := not_forall_not.mp hw
      obtain ⟨t, ht, -⟩ := exec_exists_next i (s.withPending rest)
      have hstep := stepWith_of_command d ((nextPresented_command hs).trans (presentWord_ok hi _))
      exact .inl ⟨t, hstep.trans ht⟩

/-- Settles O9: a command is its block's transition at the port, a fault has no constructor, and a step
answers in one of the two ways above. -/
theorem everyCommandCompletes : Obligations.EveryCommandCompletes :=
  ⟨fun i s => ⟨_, exec_eq_atPort i s, rfl⟩, ⟨nofun⟩, stepWith_next_or_refused⟩

end Sys2Proof.Machine
end

section
/-! PROOFS. The statements of spec/70_reset_and_hazards.md: the power-on reset, alone and against `RESET`
(R185, R186), and the boot sequence (R187), in which every command that writes a configuration register
writes the same value to it, so that neither order nor repetition matters. -/

namespace Sys2Proof.Machine

/-! ## The two resets (R185, R186) -/

/-- A power-on reset at the port gives the block of the device constant and keeps the responses. -/
theorem stepWith_powerOnReset (d : CrcConfig) {s : State} {rest : List HostEvent}
    (h : s.pending = .powerOnReset :: rest) :
    stepWith d s = .next { block := Block.powerOn d, pending := rest, responses := s.responses } :=
  stepWith_of_powerOnReset d (nextPresented_powerOnReset h)

/-- Settles O10: the block is the power-on block, whatever stood before it. -/
theorem powerOnResetEffect : Obligations.PowerOnResetEffect :=
  fun d _ _ hs => ⟨_, stepWith_powerOnReset d hs, rfl, rfl, rfl, rfl⟩

/-- Settles O11: `RESET` runs without the device constant, and after a power-on reset it loads the start
value `REG` already holds. -/
theorem powerOnAgainstSoftReset : Obligations.PowerOnAgainstSoftReset := by
  refine fun d s rest => ⟨fun hs => ?powerOn, fun hs => ?soft, fun hs => ?both⟩
  case powerOn => exact ⟨_, stepWith_powerOnReset d hs, rfl, rfl, rfl⟩
  case soft =>
    have hstep (d' : CrcConfig) : stepWith d' s = exec .reset (s.withPending rest) := stepWith_encode d' hs
    exact ⟨_, fun d' => (hstep d').trans (exec_of_write rfl), rfl, rfl, rfl⟩
  case both =>
    have hrun := stepsWith_powerOn_presented d [.reset] (rest := rest) hs
    rw [execAll_cons, exec_reset_of_reg_eq_start rfl, andThen_next] at hrun
    exact ⟨_, _, (stepsWith_one d s).trans (stepWith_powerOnReset d hs), hrun, rfl⟩

/-! ## Invariants of a stream -/

/-- What every command of a stream keeps, the stream keeps. -/
theorem runBlock_invariant {P : Block → Prop} {cs : List Instr}
    (h : ∀ i ∈ cs, ∀ c, P c → P (transition i c).1) {b : Block} (hb : P b) : P (runBlock cs b).1 := by
  induction cs generalizing b with
  | nil => exact hb
  | cons i cs ih =>
    obtain ⟨hi, hcs⟩ := List.forall_mem_cons.mp h
    exact ih hcs (hi b hb)

/-- What one command of a stream brings about and every command keeps, holds at the end. -/
theorem runBlock_of_mem {P : Block → Prop} {cs : List Instr}
    (h : ∀ i ∈ cs, ∀ c, P c → P (transition i c).1) {j : Instr} (hj : j ∈ cs)
    (hset : ∀ c, P (transition j c).1) (b : Block) : P (runBlock cs b).1 := by
  obtain ⟨xs, ys, rfl⟩ := List.append_of_mem hj
  rw [runBlock_append_block]
  exact runBlock_invariant (fun i hi => h i (List.mem_append_right xs (.tail j hi))) (hset _)

/-! ## The boot sequence (R187) -/

/-- A command of `CONSTRUCT` for the configuration `c`, or an `ADDB`. -/
def BootCommand (c : CrcConfig) (i : Instr) : Prop :=
  i ∈ constructExpansion c.poly c.startXor c.endXor c.revIn c.revOut ∨ ∃ v, i = .addb v

theorem BootCommand.isGet_eq_false {c : CrcConfig} {i : Instr} (hi : BootCommand c i) : isGet i = false := by
  obtain hmem | ⟨v, rfl⟩ := hi
  · exact isGet_of_mem_constructExpansion hmem
  · rfl

/-- What a boot command writes to a configuration register is the value the register has in `c`. -/
theorem BootCommand.transition_get {c : CrcConfig} {i : Instr} (hi : BootCommand c i) {x : Element}
    (hx : x ∈ writesOf i) (hreg : x ≠ .reg) (b : Block) :
    (transition i b).1.get x = (Block.powerOn c).get x := by
  obtain hmem | ⟨v, rfl⟩ := hi
  · have hall : ∀ i ∈ constructExpansion c.poly c.startXor c.endXor c.revIn c.revOut, ∀ x ∈ writesOf i,
        x ≠ .reg → (transition i b).1.get x = (Block.powerOn c).get x := by
      simp [constructExpansion, writesOf, transition, Block.get, Block.powerOn]
    exact hall i hmem x hx hreg
  · exact absurd (List.mem_singleton.mp hx) hreg

/-- A stream of boot commands leaves a configuration register at its value in `c` as soon as one of them
writes it. -/
theorem runBlock_get_of_bootCommand {c : CrcConfig} {cs : List Instr} (h : ∀ i ∈ cs, BootCommand c i)
    {j : Instr} (hj : j ∈ cs) {x : Element} (hx : x ∈ writesOf j) (hreg : x ≠ .reg) (b : Block) :
    (runBlock cs b).1.get x = (Block.powerOn c).get x := by
  refine runBlock_of_mem (P := fun b => b.get x = (Block.powerOn c).get x) (fun i hi b hb => ?_) hj
    ((h j hj).transition_get hx hreg) b
  by_cases hw : x ∈ writesOf i
  · exact (h i hi).transition_get hw hreg b
  · exact (transition_get_of_notMem_writesOf hw b).trans hb

/-- With `CFG.START` and `REG` at `st`, every command of `CONSTRUCT` for `st` leaves them there. -/
theorem transition_keeps_start_and_reg {p st e : Word} {ri ro : Bool} {i : Instr}
    (hi : i ∈ constructExpansion p st e ri ro) {b : Block} (hb : b.cfg.startXor = st ∧ b.reg = st) :
    (transition i b).1.cfg.startXor = st ∧ (transition i b).1.reg = st := by
  obtain ⟨hstart, hreg⟩ := hb
  cases i with
  | reset => exact ⟨hstart, hstart⟩
  | setstart v =>
    obtain rfl : v = st := by simpa [constructExpansion] using hi
    exact ⟨rfl, hreg⟩
  | addb v => simp [constructExpansion] at hi
  | _ => exact ⟨hstart, hreg⟩

/-- The commands of `CONSTRUCT`, in any order and any number, leave `REG` at the start value when a `RESET`
stands after a `SETSTART`. -/
theorem runBlock_reg_of_constructCommands {p st e : Word} {ri ro : Bool} {pre : List Instr}
    (hpre : ∀ i ∈ pre, i ∈ constructExpansion p st e ri ro)
    (hsub : ([.setstart st, .reset] : List Instr).Sublist pre) (b : Block) :
    (runBlock pre b).1.reg = st := by
  obtain ⟨xs, ys, rfl, hmem⟩ := exists_mem_before_of_sublist hsub
  obtain ⟨hxs, hrest⟩ := List.forall_mem_append.mp hpre
  obtain ⟨-, hys⟩ := List.forall_mem_cons.mp hrest
  have hstart : (runBlock xs b).1.cfg.startXor = st :=
    runBlock_get_of_bootCommand (c := ⟨p, st, e, ri, ro⟩) (x := .startXor) (fun i hi => .inl (hxs i hi))
      hmem (.head _) (by decide) b
  obtain ⟨-, hreg⟩ := runBlock_invariant (P := fun b => b.cfg.startXor = st ∧ b.reg = st)
    (b := (transition .reset (runBlock xs b).1).1) (fun i hi _ => transition_keeps_start_and_reg (hys i hi))
    ⟨hstart, hstart⟩
  rw [runBlock_append_block]
  exact hreg

/-- Bytes behind the configuration commands, with no `SETPOLY`, `SETREVIN` or `RESET` among them, leave
`REG` at their fold from the start value. -/
theorem runBlock_reg_of_boot {p st e : Word} {ri ro : Bool} {pre cs : List Instr}
    (hpre : ∀ i ∈ pre, i ∈ constructExpansion p st e ri ro) (hpoly : .setpoly p ∈ pre)
    (hrevIn : .setrevin ri ∈ pre) (hsub : ([.setstart st, .reset] : List Instr).Sublist pre)
    (hcs : ∀ i ∈ cs, undisturbed i = true) (b : Block) :
    (runBlock (pre ++ cs) b).1.reg = fold p ri st (streamBytes cs) := by
  have hboot : ∀ i ∈ pre, BootCommand ⟨p, st, e, ri, ro⟩ i := fun i hi => .inl (hpre i hi)
  have hp : (runBlock pre b).1.cfg.poly = p :=
    runBlock_get_of_bootCommand (x := .poly) hboot hpoly (.head _) (by decide) b
  have hri : (runBlock pre b).1.cfg.revIn = ri := zextBool_inj.mp
    (runBlock_get_of_bootCommand (x := .revIn) hboot hrevIn (.head _) (by decide) b)
  rw [runBlock_append_block, runBlock_reg_of_undisturbed hcs, hp, hri,
    runBlock_reg_of_constructCommands hpre hsub]

/-- Settles O52: each configuration register is written, and only ever with its one value; `REG` is at the
start value after the `RESET`, and the commands after it add nothing but the bytes. -/
theorem bootSequence : Obligations.BootSequence := by
  intro d p st e ri ro pre cs hpre hpoly hrevIn hsub hcs hend hrevOut
  have hundisturbed : ∀ i ∈ cs, undisturbed i = true := fun i hi => by
    obtain ⟨b, rfl⟩ | rfl | rfl := hcs i hi <;> rfl
  have hboot : ∀ i ∈ pre ++ cs, BootCommand ⟨p, st, e, ri, ro⟩ i :=
    List.forall_mem_append.mpr ⟨fun i hi => .inl (hpre i hi), fun i hi => by
      obtain hadd | rfl | rfl := hcs i hi
      · exact .inr hadd
      · exact .inl (by simp [constructExpansion])
      · exact .inl (by simp [constructExpansion])⟩
  have hstart : .setstart st ∈ pre := hsub.subset (.head _)
  have hset (i : Instr) {x : Element} (hi : i ∈ pre ++ cs) (hx : x ∈ writesOf i) (hreg : x ≠ .reg) :=
    runBlock_get_of_bootCommand hboot hi hx hreg (Block.powerOn d)
  have hblock : (runBlock (pre ++ cs) (Block.powerOn d)).1 =
      { cfg := ⟨p, st, e, ri, ro⟩, reg := fold p ri st (streamBytes cs) } := by
    apply Block.ext_get
    intro x
    cases x with
    | poly => exact hset (.setpoly p) (List.mem_append_left cs hpoly) (.head _) (by decide)
    | startXor => exact hset (.setstart st) (List.mem_append_left cs hstart) (.head _) (by decide)
    | endXor => exact hset (.setend e) hend (.head _) (by decide)
    | revIn => exact hset (.setrevin ri) (List.mem_append_left cs hrevIn) (.head _) (by decide)
    | revOut => exact hset (.setrevout ro) hrevOut (.head _) (by decide)
    | reg => exact runBlock_reg_of_boot hpre hpoly hrevIn hsub hundisturbed (Block.powerOn d)
  have hsilent : (runBlock (pre ++ cs) (Block.powerOn d)).2 = [] :=
    runBlock_responses_eq_nil (fun i hi => (hboot i hi).isGet_eq_false) _
  rw [execAll_append, execAll_eq_runBlock, andThen_next, execAll_cons, exec_getcrc, andThen_next,
    State.powerOn_block, hblock, hsilent]
  exact ⟨_, rfl, rfl, rfl⟩

end Sys2Proof.Machine
end

section
/-! PROOFS. What the host holds at the port, and runs to their end: no step reads the responses (R32), a step
with nothing presented changes nothing (R177), and a stream of assigned words and power-on resets never stops
before its end (R192). -/

namespace Sys2Proof.Machine

/-! ## The responses are the host's own (R32) -/

/-- The machine of a host that had got `rs` before the responses it records. -/
def State.afterResponses (rs : List Word) (s : State) : State := { s with responses := rs ++ s.responses }

/-- Earlier responses stay in front of those a command adds. -/
theorem exec_afterResponses (i : Instr) (rs : List Word) (s : State) :
    exec i (s.afterResponses rs) = andThen (exec i s) fun t => .next (t.afterResponses rs) := by
  obtain ⟨m, hm, -⟩ := exec_exists_next i s
  obtain ⟨hb, hp, hr⟩ := exec_eq_next.mp hm
  rw [hm, andThen_next, exec_eq_next]
  exact ⟨hb, hp, by simp only [State.afterResponses, hr, List.append_assoc]⟩

/-- Earlier responses stay in front of those a step adds, and change nothing else of it. -/
theorem stepWith_afterResponses (d : CrcConfig) (rs : List Word) (s : State) :
    stepWith d (s.afterResponses rs) = andThen (stepWith d s) fun t => .next (t.afterResponses rs) := by
  match hs : s.pending with
  | [] =>
    rw [stepWith_of_nothing d (nextPresented_nil hs), andThen_next]
    exact stepWith_of_nothing d (nextPresented_nil hs)
  | .powerOnReset :: rest =>
    rw [stepWith_powerOnReset d hs, andThen_next]
    exact stepWith_powerOnReset d hs
  | .command w :: rest =>
    by_cases hw : ∀ i, decode w ≠ .ok i
    · obtain ⟨hstep, -⟩ := unassignedWordRefused d s w rest 0 hs hw
      obtain ⟨hstep', -⟩ := unassignedWordRefused d (s.afterResponses rs) w rest 0 hs hw
      rw [hstep, hstep', andThen_refused]
    · obtain ⟨i, hi⟩ := not_forall_not.mp hw
      obtain rfl := decode_eq_ok_iff.mp hi
      rw [stepWith_encode d hs, ← exec_afterResponses]
      exact stepWith_encode d hs

theorem stepsWith_afterResponses (d : CrcConfig) (k : Nat) (rs : List Word) (s : State) :
    stepsWith d k (s.afterResponses rs) =
      andThen (stepsWith d k s) fun t => .next (t.afterResponses rs) := by
  induction k generalizing s with
  | zero => rfl
  | succ k ih =>
    rw [stepsWith_succ, stepsWith_succ, stepWith_afterResponses]
    cases stepWith d s with
    | next m => exact ih m
    | fault r => rfl
    | refused r => rfl

/-- Settles O60: `exec` and a stream are the block's own, at the port; and two machines that differ in the
responses alone are one machine with no responses, its runs put after different earlier ones. -/
theorem blockStoresNoHostData : Obligations.BlockStoresNoHostData := by
  refine ⟨fun i s => exec_eq_atPort i s, execAll_eq_runBlock, fun d k s rs => ?_⟩
  have hrun (qs : List Word) : stepsWith d k { s with responses := qs } =
      andThen (stepsWith d k { s with responses := [] }) fun t => .next (t.afterResponses qs) := by
    rw [← stepsWith_afterResponses, State.afterResponses, List.append_nil]
  have hself : stepsWith d k s = _ := hrun s.responses
  rw [hself, hrun rs]
  cases stepsWith d k { s with responses := [] } with
  | next u =>
    refine ⟨fun t ht => ?_, nofun⟩
    cases ht
    exact ⟨u.responses, rfl, rfl⟩
  | fault r => exact ⟨nofun, nofun⟩
  | refused r => exact ⟨nofun, fun _ h => by cases h; rfl⟩

/-! ## With nothing presented (R177) -/

/-- Settles O6, by induction on the number of steps: the idle step answers the state it began from. -/
theorem idleStepHoldsState : Obligations.IdleStepHoldsState := by
  intro d s hs k
  induction k with
  | zero => rfl
  | succ k ih => rw [stepsWith_succ, stepWith_of_nothing d (nextPresented_nil hs), andThen_next, ih]

/-! ## Assigned words and power-on resets (R165, R192) -/

/-- An event the host may present is a power-on reset or the word of a command. -/
theorem HostEvent.assigned_iff {e : HostEvent} :
    e.assigned = true ↔ e = .powerOnReset ∨ ∃ i, e = .command (encode i) := by
  cases e with
  | powerOnReset => exact ⟨fun _ => .inl rfl, fun _ => rfl⟩
  | command w =>
    have hword : assignedWord w = true ↔ ∃ i, encode i = w := by
      simpa only [decode_eq_ok_iff] using decodeMatchesOpcodeTable.1 w
    simp [assigned, hword, eq_comm]

/-- A step at such an event completes; it takes that event from the port and adds at most one response. -/
theorem stepWith_of_assigned (d : CrcConfig) {s : State} {e : HostEvent} {rest : List HostEvent}
    (hs : s.pending = e :: rest) (he : e.assigned = true) :
    ∃ t, ∃ r : Option Word, stepWith d s = .next t ∧ t.pending = rest ∧
      t.responses = s.responses ++ r.toList := by
  obtain rfl | ⟨i, rfl⟩ := HostEvent.assigned_iff.mp he
  · exact ⟨_, none, stepWith_powerOnReset d hs, rfl, (List.append_nil _).symm⟩
  · exact ⟨_, _, (stepWith_encode d hs).trans (exec_eq_atPort i _), rfl, rfl⟩

theorem State.wellFed_of_pending_nil {s : State} (hs : s.pending = []) : s.wellFed = true := by
  rw [wellFed, hs, List.all_nil]

theorem State.wellFed_of_pending_cons {s : State} {e : HostEvent} {rest : List HostEvent}
    (hs : s.pending = e :: rest) :
    s.wellFed = true ↔ e.assigned = true ∧ rest.all HostEvent.assigned = true := by
  rw [wellFed, hs, List.all_cons, Bool.and_eq_true]

/-- A well fed state has a next state, and it is well fed. -/
theorem stepWith_of_wellFed (d : CrcConfig) {s : State} (h : s.wellFed = true) :
    ∃ t, stepWith d s = .next t ∧ t.wellFed = true := by
  match hs : s.pending with
  | [] => exact ⟨s, stepWith_of_nothing d (nextPresented_nil hs), h⟩
  | e :: rest =>
    obtain ⟨he, hrest⟩ := (State.wellFed_of_pending_cons hs).mp h
    obtain ⟨t, -, hstep, rfl, -⟩ := stepWith_of_assigned d hs he
    exact ⟨t, hstep, hrest⟩

/-- Settles O54: the step takes one event from the port, and those after it were assigned before. -/
theorem wellFedInvariant : Obligations.WellFedInvariant := by
  intro d s h
  obtain ⟨t, hstep, ht⟩ := stepWith_of_wellFed d h
  refine ⟨⟨t, hstep⟩, fun u hu => ?_⟩
  cases hstep.symm.trans hu
  exact ht

/-- Settles O55: at power-on nothing is pending. -/
theorem wellFedAtPowerOn : Obligations.WellFedAtPowerOn :=
  ⟨fun d => State.wellFed_of_pending_nil (State.powerOn_pending d), State.wellFed_of_pending_nil rfl⟩

/-- A well fed state runs to the end of its events, one step and at most one response each. -/
theorem stepsWith_of_wellFed (d : CrcConfig) {s : State} (h : s.wellFed = true) :
    ∃ t rs, stepsWith d s.pending.length s = .next t ∧ t.pending = [] ∧
      t.responses = s.responses ++ rs ∧ rs.length ≤ s.pending.length := by
  induction hs : s.pending generalizing s with
  | nil => exact ⟨s, [], rfl, hs, (List.append_nil _).symm, Nat.le_refl 0⟩
  | cons e rest ih =>
    obtain ⟨he, hrest⟩ := (State.wellFed_of_pending_cons hs).mp h
    obtain ⟨m, r, hstep, rfl, hmresp⟩ := stepWith_of_assigned d hs he
    obtain ⟨t, rs, hrun, htp, htresp, hlen⟩ := ih hrest rfl
    refine ⟨t, r.toList ++ rs, ?_, htp, by rw [htresp, hmresp, List.append_assoc], ?_⟩
    · rw [List.length_cons, stepsWith_succ, hstep, andThen_next, hrun]
    · have hr : r.toList.length ≤ 1 := by cases r <;> simp
      simp only [List.length_append, List.length_cons]
      omega

/-- Settles O56: the run to the end, and from there idle steps. -/
theorem finiteStreamRunsToItsEnd : Obligations.FiniteStreamRunsToItsEnd := by
  intro d s h
  obtain ⟨t, rs, hrun, htp, htresp, hlen⟩ := stepsWith_of_wellFed d h
  refine ⟨t, rs, hrun, htp, htresp, hlen, fun k => ?_⟩
  rw [stepsWith_add, hrun, andThen_next, idleStepHoldsState d t htp]

/-! ## Power-on, and the host's own machine -/

/-- Settles O36: both states have the power-on block. -/
theorem regTracksAtPowerOn : Obligations.RegTracksAtPowerOn :=
  ⟨fun d => regTracks_powerOn d rfl, regTracks_powerOn Config.defaultCfg rfl⟩

/-- A run of the host's machine begins with a step of the device Config.lean names. -/
theorem core_run_succ (k : Nat) (s : State) :
    core.run (k + 1) s = andThen (stepWith Config.defaultCfg s) (core.run k) := by
  have hstep : core.step s = stepWith Config.defaultCfg s := rfl
  simp only [Host.Core.run, hstep]
  cases stepWith Config.defaultCfg s <;> rfl

theorem core_run_eq_stepsWith (k : Nat) (s : State) :
    core.run k s = stepsWith Config.defaultCfg k s := by
  induction k generalizing s with
  | zero => rfl
  | succ k ih => rw [core_run_succ, stepsWith_succ, funext ih]

/-- Settles O8: the power-on states by their definitions, the runs step by step. -/
theorem coreRunIsDefaultInstance : Obligations.CoreRunIsDefaultInstance :=
  ⟨fun _ => rfl, State.reset_eq_powerOn, core_run_eq_stepsWith⟩

end Sys2Proof.Machine
end

section
/-! PROOFS. The operands of an assembler line (R64) and the two pseudo-instructions (R65). -/

namespace Sys2Proof.Machine

/-! ## A number as an operand (R64) -/

theorem OperandClass.inRange_iff (c : OperandClass) (n : Nat) :
    c.inRange n = true ↔ n < 2 ^ c.width := decide_eq_true_iff

theorem u32Of_num (n : Nat) :
    u32Of (.num n) = if n ≤ 0xFFFFFFFF then some (BitVec.ofNat 32 n) else none := by
  simp only [u32Of, OperandClass.inRange_iff, OperandClass.width, Nat.reducePow, ← Nat.lt_succ_iff]

theorem byteOf_num (n : Nat) :
    byteOf (.num n) = if n ≤ 0xFF then some (BitVec.ofNat 8 n) else none := by
  simp only [byteOf, OperandClass.inRange_iff, OperandClass.width, Nat.reducePow, ← Nat.lt_succ_iff]

theorem boolOf_num (n : Nat) :
    boolOf (.num n) = if n = 0 then some false else if n = 1 then some true else none := by
  match n with
  | 0 => rfl
  | 1 => rfl
  | n + 2 =>
    have hout : ¬ n + 2 < 2 := by omega
    simp [boolOf, OperandClass.inRange_iff, OperandClass.width, hout]

/-! ## The number of a value is that value's operand -/

@[simp] theorem u32Of_toNat (v : Word) : u32Of (.num v.toNat) = some v := by
  rw [u32Of_num, if_pos (Nat.le_of_lt_succ v.isLt), BitVec.ofNat_toNat, BitVec.setWidth_eq]

@[simp] theorem byteOf_toNat (b : Byte) : byteOf (.num b.toNat) = some b := by
  rw [byteOf_num, if_pos (Nat.le_of_lt_succ b.isLt), BitVec.ofNat_toNat, BitVec.setWidth_eq]

@[simp] theorem boolOf_toNat (b : Bool) : boolOf (.num b.toNat) = some b := by
  cases b <;> rfl

/-! ## Lines (R64, R65) -/

/-- `ADD` of numbers reads each as a byte. -/
theorem expandLine_add_num (ns : List Nat) :
    expandLine .add (ns.map .num) = ((ns.map .num).mapM byteOf).map addExpansion := by
  match ns with
  | [] | [_] | _ :: _ :: _ => rfl

theorem mapM_byteOf_toNat (bs : List Byte) : (bs.map fun b => .num b.toNat).mapM byteOf = some bs := by
  induction bs with
  | nil => rfl
  | cons b bs ih => simp [List.mapM_cons, ih]

theorem emitLine_of_error {line : String} {err : AsmError} (h : assembleLine line = .error err) :
    emitLine line = [] := by
  simp only [emitLine, h]

/-- Settles O59: a line of one operand is that operand in its class, and a pseudo-instruction reads each of
its operands back from its number. -/
theorem assemblerOperands : Obligations.AssemblerOperands := by
  refine ⟨fun n => ?_, fun n => ?_, fun n => ?_, fun n => ?_, fun n => ?_, fun n => ?_,
    fun bs => ⟨rfl, ?add⟩, fun p s e ri ro => ?construct, fun line err => emitLine_of_error⟩
  case add =>
    have hnums := expandLine_add_num (bs.map BitVec.toNat)
    rw [List.map_map] at hnums
    exact hnums.trans (congrArg _ (mapM_byteOf_toNat bs))
  case construct => simp [expandLine, constructExpansion]
  all_goals
    simp only [expandLine, u32Of_num, boolOf_num, byteOf_num]
    split_ifs <;> rfl

end Sys2Proof.Machine
end
